-- ==== Sys2Proof/Word.lean ====
section
/-! DEFINITION. The word types of the block: what the spec treats as bits (00_scope R8, R9, 10_state R20). -/

namespace Sys2Proof

/-- A memory byte or a general register: 8 bits, unsigned (R8, R21). -/
abbrev Byte := BitVec 8

/-- An opcode, PC, I or a stacked return address: 16 bits (R6, R24, R26, R28). -/
abbrev Word := BitVec 16

/-- The immediate `nnn`: an unsigned 12-bit address (30_encoding R93). -/
abbrev Addr := BitVec 12

/-- The immediate `n`: a 4-bit count of sprite rows (R93). -/
abbrev Nibble := BitVec 4

/-- A general register's index, 0 to 15 (10_state R21). -/
abbrev RegIdx := Fin 16

/-- VF, register 15, the one flag of the block (10_state R22, R37). -/
abbrev vF : RegIdx := 15

end Sys2Proof
end

