-- ==== Sys2Proof/Config.lean ====
section
/-! DEFINITION. The block's parameters (00_scope R6, R7) and its free values (opaque, no body). -/

namespace Sys2Proof

/-- `INIT_REGS` (R7, D7): what V, I, DT and ST hold at creation. -/
inductive InitRegs where
  /-- the default: they hold 0 -/
  | zero
  /-- the spec's cautious alternative: they hold free values, on which no claim may depend (D7, U9) -/
  | unwritten
deriving DecidableEq, Repr

/-- The configuration of the block (R7, 10_state R36): fixed for the life of the block. -/
structure Config where
  /-- `SPEED`, the instruction budget of a frame; any natural number (40_cycle R135) -/
  speed : Nat
  /-- `STACK_DEPTH`; `none` is the unbounded stack of the source design (10_state R28, D4) -/
  stackDepth : Option Nat
  /-- `FB_WIDTH` (10_state R40, D8) -/
  fbWidth : Nat
  /-- `FB_HEIGHT` (10_state R40, D8) -/
  fbHeight : Nat
  /-- `FONT`: 16 glyphs of 5 bytes, installed at address 0 (10_state R35, D11) -/
  font : Vector Byte 80
  /-- `TONE_FREQ`: any positive number (D12) -/
  toneFreq : Rat
  /-- `INIT_REGS` (D7) -/
  initRegs : InitRegs
deriving DecidableEq, Repr

/-- Free value: the numerator, less 1, of the open parameter `TONE_FREQ` (D12; log 3). -/
opaque Config.openToneNum : Nat

/-- Free value: the denominator, less 1, of the open parameter `TONE_FREQ` (D12; log 3). -/
opaque Config.openToneDen : Nat

/-- Free value: the n-th random byte of the environment, once the draws listed in State are used up
(10_state R47, D15, U8: any byte, under no law; log 6). -/
opaque Config.freeRandom : Nat → Byte

/-- Free value: what V0 to VF (0 to 15), I (16), DT (17) and ST (18) hold after the given creation when
`INIT_REGS = Unwritten`: `Config.powerUp creation register` (D7, U9; log 5). -/
opaque Config.powerUp : Nat → Nat → Word

/-- `TONE_FREQ` of the default configuration: an open positive number (D12; log 3). -/
def Config.openToneFreq : Rat :=
  (Config.openToneNum + 1 : Rat) / (Config.openToneDen + 1 : Rat)

/-- Glyphs 0 to 7 of the default font (10_state R35). -/
def Config.fontLow : Vector Byte 40 :=
  #v[0xF0, 0x90, 0x90, 0x90, 0xF0,
     0x20, 0x60, 0x20, 0x20, 0x70,
     0xF0, 0x10, 0xF0, 0x80, 0xF0,
     0xF0, 0x10, 0xF0, 0x10, 0xF0,
     0x90, 0x90, 0xF0, 0x10, 0x10,
     0xF0, 0x80, 0xF0, 0x10, 0xF0,
     0xF0, 0x80, 0xF0, 0x90, 0xF0,
     0xF0, 0x10, 0x20, 0x40, 0x40]

/-- Glyphs 8 to F of the default font (10_state R35). -/
def Config.fontHigh : Vector Byte 40 :=
  #v[0xF0, 0x90, 0xF0, 0x90, 0xF0,
     0xF0, 0x90, 0xF0, 0x10, 0xF0,
     0xF0, 0x90, 0xF0, 0x90, 0x90,
     0xE0, 0x90, 0xE0, 0x90, 0xE0,
     0xF0, 0x80, 0x80, 0x80, 0xF0,
     0xE0, 0x90, 0x90, 0x90, 0xE0,
     0xF0, 0x80, 0xF0, 0x80, 0xF0,
     0xF0, 0x80, 0xF0, 0x80, 0x80]

/-- The defaults of R7 (log 2); `TONE_FREQ` stays open (log 3). -/
def Config.default : Config where
  speed := 10
  stackDepth := some 16
  fbWidth := 64
  fbHeight := 32
  font := Config.fontLow ++ Config.fontHigh
  toneFreq := Config.openToneFreq
  initRegs := .zero

end Sys2Proof
end

