-- ==== Sys2Proof/Machine/State.lean ====
section
/-! DEFINITION. The state of the block: the components of 10_state R20, the environment state behind
its ports (10_state section 6), the control state of 40_cycle R120, and the model's own plain-data
fields for what the environment supplies and receives. -/

namespace Sys2Proof.Machine

/-- `run` (10_state R31, R38). -/
inductive RunState where
  /-- RUNNING -/
  | running
  /-- WAITING_FOR_KEY: entered by Fx0A, nothing executes until a key press -/
  | waitingForKey
  /-- HALTED: the state a fault leaves -/
  | halted
deriving DecidableEq, Repr

/-- `fault.cause` (10_state R32, R38, 60_exceptions R280). -/
inductive FaultCause where
  /-- code 1: the fetched word decodes to UNKNOWN (R281) -/
  | unknownOpcode
  /-- code 2: a CALL with STACK_DEPTH entries on the stack (R282) -/
  | stackOverflow
  /-- code 3: a RET with an empty stack (R282) -/
  | stackUnderflow
deriving DecidableEq, Repr

/-- The fault record `(cause, opcode, fault_pc)` (10_state R32). -/
structure FaultRecord where
  /-- which of the three execution faults -/
  cause : FaultCause
  /-- the 16-bit word fetched -/
  opcode : Word
  /-- the address it was fetched from, before the advance of R24 -/
  faultPc : Word
deriving DecidableEq, Repr

/-- The block's top-level control state (40_cycle R120). -/
inductive Control where
  /-- IDLE: between transactions; only here is a transaction accepted -/
  | idle
  /-- IN_FRAME(i): inside a frame, after i of its instructions -/
  | inFrame (i : Nat)
  /-- FRAME_END: the end-of-frame sequence -/
  | frameEnd
deriving DecidableEq, Repr

/-- The kinds of `load_error` (60_exceptions R280, R286). -/
inductive LoadErrorKind where
  /-- LOAD_EMPTY: the byte sequence is empty -/
  | empty
  /-- LOAD_TOO_LARGE: more than 3584 bytes -/
  | tooLarge
  /-- LOAD_UNAVAILABLE: the external byte source failed before any load (log 15) -/
  | unavailable
deriving DecidableEq, Repr

/-- What the environment does to the block between frames (10_state R48, R44, 60_exceptions R289). -/
inductive Input where
  /-- `create()`: power-on reset (70_reset R320) -/
  | create
  /-- `load_program(bytes)` (70_reset R322) -/
  | loadProgram (bytes : List Byte)
  /-- the external loader fails before calling `load_program` (R286; log 15) -/
  | loadUnavailable
  /-- `run_one_frame()` (40_cycle R130) -/
  | runOneFrame
  /-- `key_press(k)`, 0 <= k <= 15 (10_state R45, 40_cycle R136) -/
  | keyPress (k : Fin 16)
  /-- the environment changes its key table (10_state R44, R45) -/
  | setKeys (keys : Vector Bool 16)
deriving DecidableEq, Repr

/-- The pixels that are on, as keys `cy * FB_WIDTH + cx`, strictly rising (10_state R40; log 12). -/
abbrev Framebuffer := List Nat

/-- The bytes that differ from their creation value, by address, strictly rising (10_state R34; log 11). -/
abbrev Memory := List Host.Cell

/-- The block's outputs (10_state R48). -/
inductive Output where
  /-- `fb.clear()` (R41) -/
  | fbClear
  /-- `fb.toggle_pixel(px, py)`, the coordinates as the block passes them (R42) -/
  | fbTogglePixel (px py : Nat)
  /-- `fb.present()`: hands the current grid to the output (R43) -/
  | fbPresent (grid : Framebuffer)
  /-- `tone.start(f)` (R46) -/
  | toneStart (f : Rat)
  /-- `tone.stop()` (R46) -/
  | toneStop
  /-- `fault_report(cause, opcode, fault_pc)` (60_exceptions R284) -/
  | faultReport (r : FaultRecord)
  /-- `load_error(kind)` (60_exceptions R286) -/
  | loadError (kind : LoadErrorKind)
deriving DecidableEq, Repr

/-- The registers that `INIT_REGS` speaks of (00_scope R7, D7). -/
inductive Reg where
  /-- a general register -/
  | v (x : RegIdx)
  /-- the index register -/
  | i
  /-- the delay timer -/
  | dt
  /-- the sound timer -/
  | st
deriving DecidableEq, Repr

/-- Which registers have been written since creation (D7; log 5). -/
structure Written where
  /-- V0 to VF -/
  v : Vector Bool 16
  /-- I -/
  i : Bool
  /-- DT -/
  dt : Bool
  /-- ST -/
  st : Bool
deriving DecidableEq, Repr

/-- The state: R20's components by their names there, then the environment's state (R40, R44, R46),
the control state (R120), and the model's own fields (log 1, 5, 6, 7, 9). -/
structure State where
  /-- memory (R20, R34) -/
  mem : Memory
  /-- V0 to VF (R21) -/
  V : Vector Byte 16
  /-- the index register (R26) -/
  I : Word
  /-- the program counter (R24) -/
  PC : Word
  /-- the call stack, the most recently pushed value last (R28) -/
  stack : List Word
  /-- the delay timer (R29) -/
  DT : Byte
  /-- the sound timer (R30) -/
  ST : Byte
  /-- the run state (R31) -/
  run : RunState
  /-- `wait_reg` (R31) -/
  waitReg : RegIdx
  /-- the fault record (R32) -/
  fault : Option FaultRecord
  /-- the Framebuffer's pixel grid (R40) -/
  fb : Framebuffer
  /-- the Input Source's key table (R44) -/
  keys : Vector Bool 16
  /-- the Tone Generator: the frequency it sounds at, or none when stopped (R46; log 10) -/
  tone : Option Rat
  /-- the control state (R120) -/
  ctl : Control
  /-- the environment's transactions not yet accepted, the next one first (R48, R289; log 7) -/
  inputs : List Input
  /-- the environment's next random bytes (R47, D15; log 6) -/
  draws : List Byte
  /-- how many free random bytes were taken after `draws` ran out (log 6) -/
  drawCount : Nat
  /-- the number of this creation, which indexes the free values of `INIT_REGS = Unwritten` (log 5) -/
  creations : Nat
  /-- the block's outputs so far, oldest first (R48; log 9) -/
  outputs : List Output
  /-- which registers have been written (D7; log 5) -/
  written : Written
  /-- the configuration (R36; log 1) -/
  cfg : Config
deriving DecidableEq, Repr

/-- The model's own stops by fault: none. Every execution fault of the spec (60_exceptions R280) has an
effect the spec describes and is taken as a next state (R283; log 14), and every address is reduced
modulo 4096, so that no access faults (20_memory R61). Nothing raises a value of this type. Safe. -/
inductive Fault where
deriving DecidableEq, Repr

/-- Why a step has no meaning. -/
inductive Refusal where
  /-- an instruction whose arm of `exec` has no meaning yet; raised by `exec` alone; safe -/
  | notModelled (mnemonic : String)
deriving DecidableEq, Repr

/-- What a 16-bit register of `INIT_REGS` holds at creation: 0, or a free value (D7; log 5). -/
def powerUpWord (c : Config) (creation n : Nat) : Word :=
  match c.initRegs with
  | .zero => 0
  | .unwritten => Config.powerUp creation n

/-- What an 8-bit register of `INIT_REGS` holds at creation: 0, or a free value (D7; log 5). -/
def powerUpByte (c : Config) (creation n : Nat) : Byte := (powerUpWord c creation n).setWidth 8

/-- No register written yet. -/
def Written.none : Written := ⟨Vector.replicate 16 false, false, false, false⟩

/-- The block right after its n-th `create()` (70_reset R320, 10_state R20) in an environment that has
supplied nothing yet and received nothing (log 4, 5, 6, 7, 8, 9). -/
def State.initial (c : Config) (n : Nat) : State where
  mem := []
  V := #v[powerUpByte c n 0, powerUpByte c n 1, powerUpByte c n 2, powerUpByte c n 3,
    powerUpByte c n 4, powerUpByte c n 5, powerUpByte c n 6, powerUpByte c n 7,
    powerUpByte c n 8, powerUpByte c n 9, powerUpByte c n 10, powerUpByte c n 11,
    powerUpByte c n 12, powerUpByte c n 13, powerUpByte c n 14, powerUpByte c n 15]
  I := powerUpWord c n 16
  PC := 0x200
  stack := []
  DT := powerUpByte c n 17
  ST := powerUpByte c n 18
  run := .running
  waitReg := 0
  fault := none
  fb := []
  keys := Vector.replicate 16 false
  tone := none
  ctl := .idle
  inputs := []
  draws := []
  drawCount := 0
  creations := n
  outputs := []
  written := Written.none
  cfg := c

/-- The machine right after reset, with the default parameters of 00_scope R7 (70_reset R320). -/
def State.reset : State := State.initial Config.default 0

end Sys2Proof.Machine
end

