-- ==== Sys2Proof/Machine/Flags.lean ====
section
/-! DEFINITION. Every value that an instruction writes into VF as a flag (10_state R37, 42_alu R187 to
R191, 44_display_input_timers R252). VF is the only flag. -/

namespace Sys2Proof.Machine

/-- 8xy4: 1 if the exact sum exceeds 255, else 0 (R187). -/
def carryFlag (a b : Byte) : Byte := if 255 < a.toNat + b.toNat then 1 else 0

/-- 8xy5 and 8xy7: 1 if the minuend is strictly greater than the subtrahend, else 0 (R188, R190). -/
def notBorrowFlag (a b : Byte) : Byte := if b.toNat < a.toNat then 1 else 0

/-- 8xy6: the bit shifted out, 0 or 1 (R189). -/
def shrFlag (a : Byte) : Byte := a &&& 0x01

/-- 8xyE: the raw mask of bit 7, 0 or 0x80, not 0 or 1 (R191, U17). -/
def shlFlag (a : Byte) : Byte := a &&& 0x80

/-- Dxyn: 1 if any toggle turned a pixel off, else 0 (R252). -/
def collisionFlag (hit : Bool) : Byte := if hit then 1 else 0

end Sys2Proof.Machine
end

