-- ==== Sys2Proof/Syntax.lean ====
section
/-! DEFINITION. The 34 instructions, one constructor per row of spec/opcode_table.json
(30_encoding R96). Every operand's type is exactly the width of its field (R91), so no term of this
type is ill-formed. -/

namespace Sys2Proof

/-- One constructor per row of the decode table of 30_encoding R96, with the fields its format uses
(R92). `shr` and `shl` keep the y field, which R97 decodes and R100 says is ignored (log 18). -/
inductive Instr where
  /-- 00E0, clear the display (R251) -/
  | cls
  /-- 00EE, return from subroutine (R151) -/
  | ret
  /-- 1nnn, jump (R152) -/
  | jp (nnn : Addr)
  /-- 2nnn, call subroutine (R153) -/
  | call (nnn : Addr)
  /-- 3xkk, skip if equal to immediate (R154) -/
  | seImm (x : RegIdx) (kk : Byte)
  /-- 4xkk, skip if not equal to immediate (R155) -/
  | sneImm (x : RegIdx) (kk : Byte)
  /-- 5xy0, skip if registers are equal (R156) -/
  | seReg (x y : RegIdx)
  /-- 6xkk, load immediate (R181) -/
  | ldImm (x : RegIdx) (kk : Byte)
  /-- 7xkk, add immediate (R182) -/
  | addImm (x : RegIdx) (kk : Byte)
  /-- 8xy0, copy register (R183) -/
  | ldReg (x y : RegIdx)
  /-- 8xy1, bitwise OR (R184) -/
  | orReg (x y : RegIdx)
  /-- 8xy2, bitwise AND (R185) -/
  | andReg (x y : RegIdx)
  /-- 8xy3, bitwise exclusive OR (R186) -/
  | xorReg (x y : RegIdx)
  /-- 8xy4, add with carry out (R187) -/
  | addReg (x y : RegIdx)
  /-- 8xy5, subtract with a not-borrow flag (R188) -/
  | sub (x y : RegIdx)
  /-- 8xy6, shift V[x] right by one; y is ignored (R189) -/
  | shr (x y : RegIdx)
  /-- 8xy7, reverse subtract (R190) -/
  | subn (x y : RegIdx)
  /-- 8xyE, shift V[x] left by one; y is ignored (R191) -/
  | shl (x y : RegIdx)
  /-- 9xy0, skip if registers differ (R157) -/
  | sneReg (x y : RegIdx)
  /-- Annn, load the index register (R221) -/
  | ldI (nnn : Addr)
  /-- Bnnn, jump with offset V0 (R158) -/
  | jpV0 (nnn : Addr)
  /-- Cxkk, random byte under a mask (R192) -/
  | rnd (x : RegIdx) (kk : Byte)
  /-- Dxyn, draw a sprite by XOR (R252) -/
  | drw (x y : RegIdx) (n : Nibble)
  /-- Ex9E, skip if the key is pressed (R253) -/
  | skp (x : RegIdx)
  /-- ExA1, skip if the key is not pressed (R254) -/
  | sknp (x : RegIdx)
  /-- Fx07, read the delay timer (R255) -/
  | ldVxDt (x : RegIdx)
  /-- Fx0A, wait for a key press (R256) -/
  | ldVxK (x : RegIdx)
  /-- Fx15, set the delay timer (R257) -/
  | ldDtVx (x : RegIdx)
  /-- Fx18, set the sound timer (R258) -/
  | ldStVx (x : RegIdx)
  /-- Fx1E, add a register to the index (R222) -/
  | addIVx (x : RegIdx)
  /-- Fx29, point I at a font glyph (R223) -/
  | ldFVx (x : RegIdx)
  /-- Fx33, store the BCD of a register (R224) -/
  | ldBVx (x : RegIdx)
  /-- Fx55, store registers V0 to Vx (R225) -/
  | ldMemVx (x : RegIdx)
  /-- Fx65, load registers V0 to Vx (R226) -/
  | ldVxMem (x : RegIdx)
deriving DecidableEq, Repr

end Sys2Proof
end

