-- ==== Sys2Proof/Machine/Ops.lean ====
section
/-! DEFINITION. The named operations over the state: memory (20_memory), registers (10_state R21), the
call stack (R28), the framebuffer, tone and report ports (10_state section 6), the random source
(R47), the written-register record of INIT_REGS (D7), and raising a fault (60_exceptions R283). -/

namespace Sys2Proof.Machine

/-! ## Memory -/

/-- What an address that the memory does not list reads as: its creation value, FONT at 0x000-0x04F and
0 elsewhere (20_memory R66, 70_reset R320). -/
def Memory.blank (font : Vector Byte 80) (a : Nat) : Byte :=
  if h : a < 80 then font[a] else 0

/-- The byte at an address already reduced modulo 4096. -/
def Memory.get (font : Vector Byte 80) : Memory → Nat → Byte
  | [], a => Memory.blank font a
  | (k, b) :: m, a => if a = k then b else Memory.get font m a

/-- Store a byte at an address already reduced modulo 4096, keeping the canonical form. -/
def Memory.set (font : Vector Byte 80) : Memory → Nat → Byte → Memory
  | [], a, b => if b = Memory.blank font a then [] else [(a, b)]
  | (k, c) :: m, a, b =>
    if a < k then
      if b = Memory.blank font a then (k, c) :: m else (a, b) :: (k, c) :: m
    else if a = k then
      if b = Memory.blank font a then m else (a, b) :: m
    else (k, c) :: Memory.set font m a b

/-- The canonical form: addresses strictly rising and below 4096, no entry equal to what the unlisted
address reads as. -/
abbrev Memory.wf (font : Vector Byte 80) (m : Memory) : Prop :=
  m.Pairwise (fun p q => p.1 < q.1) ∧ ∀ p ∈ m, p.1 < 4096 ∧ p.2 ≠ Memory.blank font p.1

/-- `MemRead(addr, 1) = mem[addr mod 4096]` (00_scope R10, 20_memory R61). -/
def State.memRead (s : State) (addr : Nat) : Byte :=
  Memory.get s.cfg.font s.mem (addr % 4096)

/-- `MemWrite(addr, 1, b)` sets `mem[addr mod 4096]` (00_scope R10, 20_memory R61). -/
def State.memWrite (s : State) (addr : Nat) (b : Byte) : State :=
  { s with mem := Memory.set s.cfg.font s.mem (addr % 4096) b }

/-- Store bytes at `addr`, `addr + 1`, …, in rising order, each address reduced on its own (R61, C8). -/
def State.storeBytes (s : State) (addr : Nat) : List Byte → State
  | [] => s
  | b :: bs => (s.memWrite addr b).storeBytes (addr + 1) bs

/-- The `n` bytes at `addr`, `addr + 1`, …, each address reduced on its own (R61, C8). -/
def State.readBytes (s : State) (addr : Nat) : Nat → List Byte
  | 0 => []
  | n + 1 => s.memRead addr :: s.readBytes (addr + 1) n

/-! ## General registers -/

/-- Read `V[x]` (00_scope R10, 10_state R21). -/
def State.readV (s : State) (x : RegIdx) : Byte := s.V[x.val]

/-- `V[x] <- b` (00_scope R10, 10_state R21). -/
def State.writeV (s : State) (x : RegIdx) (b : Byte) : State :=
  { s with V := s.V.set x.val b }

/-- Load `V[0]` to `V[n-1]` from `addr`, `addr + 1`, … (43_index_memory R226). -/
def State.loadRegs (s : State) (addr : Nat) : Nat → State
  | 0 => s
  | n + 1 => (s.loadRegs addr n).writeV (Fin.ofNat 16 n) (s.memRead (addr + n))

/-! ## The program counter and the call stack -/

/-- Skip: `PC <- (PC + 2) mod 65536` when the condition holds (41_flow R150). -/
def State.skipIf (s : State) (c : Bool) : State :=
  if c then { s with PC := s.PC + 2 } else s

/-- The stack already holds `STACK_DEPTH` entries; never so when it is unbounded (41_flow R153). -/
def State.stackFull (s : State) : Bool :=
  match s.cfg.stackDepth with
  | none => false
  | some d => s.stack.length == d

/-- `push(v)` appends v to the call stack (00_scope R10). -/
def State.push (s : State) (v : Word) : State := { s with stack := s.stack ++ [v] }

/-! ## Outputs and faults -/

/-- Issue one output (10_state R48; log 9). -/
def State.emit (s : State) (o : Output) : State := { s with outputs := s.outputs ++ [o] }

/-- The numeric code of a cause (60_exceptions R280, D21); 0 is no fault. -/
def FaultCause.code : FaultCause → Nat
  | .unknownOpcode => 1
  | .stackOverflow => 2
  | .stackUnderflow => 3

/-- `raise Fault(cause, op, a)` (60_exceptions R283): the record is written, the block halts, the report
is emitted, and the frame ends at once. -/
def State.raiseFault (s : State) (cause : FaultCause) (op a : Word) : State :=
  { s with
    fault := some ⟨cause, op, a⟩
    run := .halted
    ctl := .idle
    outputs := s.outputs ++ [.faultReport ⟨cause, op, a⟩] }

/-! ## Framebuffer (10_state R40 to R43) -/

/-- Toggle one key of a strictly rising list. -/
def Framebuffer.toggle : Framebuffer → Nat → Framebuffer
  | [], p => [p]
  | q :: qs, p =>
    if p < q then p :: q :: qs
    else if p = q then qs
    else q :: Framebuffer.toggle qs p

/-- The canonical form: strictly rising, every key a pixel of the grid. -/
abbrev Framebuffer.wf (c : Config) (fb : Framebuffer) : Prop :=
  fb.Pairwise (· < ·) ∧ ∀ p ∈ fb, p < c.fbWidth * c.fbHeight

/-- The key of the pixel that coordinates name after the wrap of R42. -/
def pixelKey (c : Config) (px py : Nat) : Nat :=
  (py % c.fbHeight) * c.fbWidth + px % c.fbWidth

/-- `fb[px mod FB_WIDTH][py mod FB_HEIGHT]` is on (R40). -/
def State.pixelOn (s : State) (px py : Nat) : Bool := decide (pixelKey s.cfg px py ∈ s.fb)

/-- `fb.clear()`: every pixel off (R41). -/
def State.clearFb (s : State) : State :=
  { s with fb := [], outputs := s.outputs ++ [.fbClear] }

/-- The effect of `fb.toggle_pixel(px, py)` (R42). -/
def State.togglePixel (s : State) (px py : Nat) : State :=
  { s with
    fb := Framebuffer.toggle s.fb (pixelKey s.cfg px py)
    outputs := s.outputs ++ [.fbTogglePixel px py] }

/-- Toggle pixels in order; the answer is whether any call returned true, that is, turned an on pixel
off (R42, 44_display_input_timers R252). -/
def State.togglePixels (s : State) : List (Nat × Nat) → Bool × State
  | [] => (false, s)
  | p :: ps =>
    let rest := (s.togglePixel p.1 p.2).togglePixels ps
    (s.pixelOn p.1 p.2 || rest.1, rest.2)

/-- `fb.present()`: the current grid goes to the output (R43). -/
def State.present (s : State) : State := s.emit (.fbPresent s.fb)

/-! ## Tone generator (10_state R46) -/

/-- `tone.start(TONE_FREQ)`. -/
def State.toneStart (s : State) : State :=
  { s with tone := some s.cfg.toneFreq, outputs := s.outputs ++ [.toneStart s.cfg.toneFreq] }

/-- `tone.stop()`. -/
def State.toneStop (s : State) : State :=
  { s with tone := none, outputs := s.outputs ++ [.toneStop] }

/-! ## Random source (10_state R47) -/

/-- The next random byte: the environment's next listed draw, else a free value (log 6). -/
def State.nextRandom (s : State) : Byte :=
  match s.draws with
  | r :: _ => r
  | [] => Config.freeRandom s.drawCount

/-- The state once one random byte has been taken (log 6). -/
def State.afterRandom (s : State) : State :=
  match s.draws with
  | _ :: rest => { s with draws := rest }
  | [] => { s with drawCount := s.drawCount + 1 }

/-! ## The written-register record (D7; log 5) -/

/-- Record a write of one register. -/
def Written.mark (w : Written) : Reg → Written
  | .v x => { w with v := w.v.set x.val true }
  | .i => { w with i := true }
  | .dt => { w with dt := true }
  | .st => { w with st := true }

/-- Has the register been written since creation? -/
def Written.has (w : Written) : Reg → Bool
  | .v x => w.v[x.val]
  | .i => w.i
  | .dt => w.dt
  | .st => w.st

/-- Record writes of several registers. -/
def State.markWritten (s : State) (rs : List Reg) : State :=
  { s with written := rs.foldl Written.mark s.written }

/-- The first register of a list that holds a free value of `INIT_REGS = Unwritten`, not written since
creation; none with `INIT_REGS = Zero`. No step reads it: it names the reads on which the spec lets no
claim depend (D7, U9; log 5). -/
def State.unwrittenOf (s : State) (rs : List Reg) : Option Reg :=
  match s.cfg.initRegs with
  | .zero => none
  | .unwritten => rs.find? (fun r => !s.written.has r)

end Sys2Proof.Machine
end

