-- ==== Sys2Proof/Machine/Operands.lean ====
section
/-! DEFINITION. The operand forms of the instructions: immediates (30_encoding R93), memory through I
(43_index_memory R220), key operands (10_state R44), sprites (44_display_input_timers R252), the
decimal digits of Fx33 (R224), and which registers each instruction reads and writes (10_state R23). -/

namespace Sys2Proof.Machine

/-- `zext_16(nnn)` (30_encoding R93). -/
def zext16 (nnn : Addr) : Word := nnn.setWidth 16

/-- `V[0] .. V[x]` in order (43_index_memory R225). -/
def State.regsUpTo (s : State) (x : RegIdx) : List Byte := s.V.toList.take (x.val + 1)

/-- The hundreds, tens and units digits of a byte (43_index_memory R224). -/
def bcdDigits (v : Byte) : List Byte :=
  [BitVec.ofNat 8 (v.toNat / 100), BitVec.ofNat 8 (v.toNat / 10 % 10), BitVec.ofNat 8 (v.toNat % 10)]

/-- Is the key that a register value names pressed? A value over 15 names no key and counts as not
pressed (10_state R44, D13). -/
def State.keyPressed (s : State) (v : Byte) : Bool :=
  if h : v.toNat < 16 then s.keys[v.toNat] else false

/-- The pixels of one sprite row drawn at `(px, py)`, columns left to right; bit 7 is the leftmost
(44_display_input_timers R252, D9). -/
def rowPixels (px py : Nat) (b : Byte) : List (Nat × Nat) :=
  ((List.range 8).filter fun c => b.getLsbD (7 - c)).map fun c => (px + c, py)

/-- The pixels of a sprite drawn at `(px, py)`, rows in increasing order (R252). -/
def spritePixels (px py : Nat) : List Byte → List (Nat × Nat)
  | [] => []
  | b :: bs => rowPixels px py b ++ spritePixels px (py + 1) bs

/-- The pixels that `Dxyn` toggles, in order: coordinates `V[x]`, `V[y]`, rows from memory at I (R252). -/
def State.drawPixels (s : State) (x y : RegIdx) (n : Nibble) : List (Nat × Nat) :=
  spritePixels (s.readV x).toNat (s.readV y).toNat (s.readBytes s.I.toNat n.toNat)

/-- `V[0] .. V[x]` as registers (10_state R23). -/
def regRange (x : RegIdx) : List Reg :=
  (List.range (x.val + 1)).map fun k => .v (Fin.ofNat 16 k)

/-- The registers of `INIT_REGS` that an instruction reads (10_state R23 for V; the instruction's own
rule for I, DT and ST). `Dxyn` reads I only when it reads a sprite byte. -/
def regsRead : Instr → List Reg
  | .cls => []
  | .ret => []
  | .jp _ => []
  | .call _ => []
  | .seImm x _ => [.v x]
  | .sneImm x _ => [.v x]
  | .seReg x y => [.v x, .v y]
  | .ldImm _ _ => []
  | .addImm x _ => [.v x]
  | .ldReg _ y => [.v y]
  | .orReg x y => [.v x, .v y]
  | .andReg x y => [.v x, .v y]
  | .xorReg x y => [.v x, .v y]
  | .addReg x y => [.v x, .v y]
  | .sub x y => [.v x, .v y]
  | .shr x _ => [.v x]
  | .subn x y => [.v x, .v y]
  | .shl x _ => [.v x]
  | .sneReg x y => [.v x, .v y]
  | .ldI _ => []
  | .jpV0 _ => [.v 0]
  | .rnd _ _ => []
  | .drw x y n => if n = 0 then [.v x, .v y] else [.v x, .v y, .i]
  | .skp x => [.v x]
  | .sknp x => [.v x]
  | .ldVxDt _ => [.dt]
  | .ldVxK _ => []
  | .ldDtVx x => [.v x]
  | .ldStVx x => [.v x]
  | .addIVx x => [.i, .v x]
  | .ldFVx x => [.v x]
  | .ldBVx x => [.v x, .i]
  | .ldMemVx x => .i :: regRange x
  | .ldVxMem _ => [.i]

/-- The registers of `INIT_REGS` that an instruction writes when it executes (10_state R23; the register
of Fx0A is written later, by the key event). -/
def regsWritten : Instr → List Reg
  | .cls => []
  | .ret => []
  | .jp _ => []
  | .call _ => []
  | .seImm _ _ => []
  | .sneImm _ _ => []
  | .seReg _ _ => []
  | .ldImm x _ => [.v x]
  | .addImm x _ => [.v x]
  | .ldReg x _ => [.v x]
  | .orReg x _ => [.v x]
  | .andReg x _ => [.v x]
  | .xorReg x _ => [.v x]
  | .addReg x _ => [.v x, .v vF]
  | .sub x _ => [.v x, .v vF]
  | .shr x _ => [.v x, .v vF]
  | .subn x _ => [.v x, .v vF]
  | .shl x _ => [.v x, .v vF]
  | .sneReg _ _ => []
  | .ldI _ => [.i]
  | .jpV0 _ => []
  | .rnd x _ => [.v x]
  | .drw _ _ _ => [.v vF]
  | .skp _ => []
  | .sknp _ => []
  | .ldVxDt x => [.v x]
  | .ldVxK _ => []
  | .ldDtVx _ => [.dt]
  | .ldStVx _ => [.st]
  | .addIVx _ => [.i]
  | .ldFVx _ => [.i]
  | .ldBVx _ => []
  | .ldMemVx _ => []
  | .ldVxMem x => regRange x

end Sys2Proof.Machine
end

