-- ==== Sys2Proof/Machine/Alu.lean ====
section
/-! DEFINITION. Register arithmetic and logic (42_alu R180 to R194). Where a rule writes VF and V[x], the
writes stand in the order of the rule, and a later read sees the earlier write (R180, D16). -/

namespace Sys2Proof.Machine

/-- LD Vx, kk (R181). -/
def execLdImm (x : RegIdx) (kk : Byte) (s : State) : Host.Outcome State Fault Refusal :=
  .next (s.writeV x kk)

/-- ADD Vx, kk (R182): modulo 256, no flag. -/
def execAddImm (x : RegIdx) (kk : Byte) (s : State) : Host.Outcome State Fault Refusal :=
  .next (s.writeV x (s.readV x + kk))

/-- LD Vx, Vy (R183). -/
def execLdReg (x y : RegIdx) (s : State) : Host.Outcome State Fault Refusal :=
  .next (s.writeV x (s.readV y))

/-- OR Vx, Vy (R184): no flag (D26). -/
def execOrReg (x y : RegIdx) (s : State) : Host.Outcome State Fault Refusal :=
  .next (s.writeV x (s.readV x ||| s.readV y))

/-- AND Vx, Vy (R185): no flag (D26). -/
def execAndReg (x y : RegIdx) (s : State) : Host.Outcome State Fault Refusal :=
  .next (s.writeV x (s.readV x &&& s.readV y))

/-- XOR Vx, Vy (R186): no flag (D26). -/
def execXorReg (x y : RegIdx) (s : State) : Host.Outcome State Fault Refusal :=
  .next (s.writeV x (s.readV x ^^^ s.readV y))

/-- ADD Vx, Vy (R187): both operands read first, then the sum, then VF. -/
def execAddReg (x y : RegIdx) (s : State) : Host.Outcome State Fault Refusal :=
  .next ((s.writeV x (s.readV x + s.readV y)).writeV vF (carryFlag (s.readV x) (s.readV y)))

/-- SUB Vx, Vy (R188): VF first, then the difference of the registers as they then stand. -/
def execSub (x y : RegIdx) (s : State) : Host.Outcome State Fault Refusal :=
  let s1 := s.writeV vF (notBorrowFlag (s.readV x) (s.readV y))
  .next (s1.writeV x (s1.readV x - s1.readV y))

/-- SHR Vx (R189): VF first, then the shift of V[x] as it then stands; y is ignored (R100). -/
def execShr (x _y : RegIdx) (s : State) : Host.Outcome State Fault Refusal :=
  let s1 := s.writeV vF (shrFlag (s.readV x))
  .next (s1.writeV x (s1.readV x >>> 1))

/-- SUBN Vx, Vy (R190): VF first, then the reverse difference of the registers as they then stand. -/
def execSubn (x y : RegIdx) (s : State) : Host.Outcome State Fault Refusal :=
  let s1 := s.writeV vF (notBorrowFlag (s.readV y) (s.readV x))
  .next (s1.writeV x (s1.readV y - s1.readV x))

/-- SHL Vx (R191): VF first (the raw mask), then the shift of V[x] as it then stands; y is ignored
(R100). -/
def execShl (x _y : RegIdx) (s : State) : Host.Outcome State Fault Refusal :=
  let s1 := s.writeV vF (shlFlag (s.readV x))
  .next (s1.writeV x (s1.readV x <<< 1))

/-- RND Vx, kk (R192): one fresh random byte under the mask. -/
def execRnd (x : RegIdx) (kk : Byte) (s : State) : Host.Outcome State Fault Refusal :=
  .next (s.afterRandom.writeV x (s.nextRandom &&& kk))

end Sys2Proof.Machine
end

