-- ==== Sys2Proof/Machine/DisplayInputTimers.lean ====
section
/-! DEFINITION. Display, key input and timers (44_display_input_timers R250 to R259). -/

namespace Sys2Proof.Machine

/-- CLS (R251). -/
def execCls (s : State) : Host.Outcome State Fault Refusal := .next s.clearFb

/-- DRW Vx, Vy, n (R252): coordinates and sprite read first, the pixels toggled in order, VF last. -/
def execDrw (x y : RegIdx) (n : Nibble) (s : State) : Host.Outcome State Fault Refusal :=
  let drawn := s.togglePixels (s.drawPixels x y n)
  .next (drawn.2.writeV vF (collisionFlag drawn.1))

/-- SKP Vx (R253). -/
def execSkp (x : RegIdx) (s : State) : Host.Outcome State Fault Refusal :=
  .next (s.skipIf (s.keyPressed (s.readV x)))

/-- SKNP Vx (R254). -/
def execSknp (x : RegIdx) (s : State) : Host.Outcome State Fault Refusal :=
  .next (s.skipIf (!s.keyPressed (s.readV x)))

/-- LD Vx, DT (R255). -/
def execLdVxDt (x : RegIdx) (s : State) : Host.Outcome State Fault Refusal :=
  .next (s.writeV x s.DT)

/-- LD Vx, K (R256): the wait begins; V[x] is written by the key event (40_cycle R136). -/
def execLdVxK (x : RegIdx) (s : State) : Host.Outcome State Fault Refusal :=
  .next { s with waitReg := x, run := .waitingForKey }

/-- LD DT, Vx (R257). -/
def execLdDtVx (x : RegIdx) (s : State) : Host.Outcome State Fault Refusal :=
  .next { s with DT := s.readV x }

/-- LD ST, Vx (R258). -/
def execLdStVx (x : RegIdx) (s : State) : Host.Outcome State Fault Refusal :=
  .next { s with ST := s.readV x }

end Sys2Proof.Machine
end

