-- ==== Sys2Proof/Machine/Flow.lean ====
section
/-! DEFINITION. Control flow (41_flow R150 to R160). PC already holds `a + 2` when a meaning runs
(40_cycle R122), so the address the instruction was fetched from is `PC - 2` (log 17). -/

namespace Sys2Proof.Machine

/-- The address the running instruction was fetched from: PC less the advance of R122 (log 17). -/
def State.fetchPc (s : State) : Word := s.PC - 2

/-- RET (R151): STACK_UNDERFLOW when the stack is empty, else `PC <- pop()`. -/
def execRet (s : State) : Host.Outcome State Fault Refusal :=
  match s.stack.getLast? with
  | none => .next (s.raiseFault .stackUnderflow (encode .ret) s.fetchPc)
  | some v => .next { s with PC := v, stack := s.stack.dropLast }

/-- JP nnn (R152): `PC <- zext_16(nnn)`. -/
def execJp (nnn : Addr) (s : State) : Host.Outcome State Fault Refusal :=
  .next { s with PC := zext16 nnn }

/-- CALL nnn (R153): STACK_OVERFLOW when the stack is full, else push the advanced PC and jump. -/
def execCall (nnn : Addr) (s : State) : Host.Outcome State Fault Refusal :=
  if s.stackFull then .next (s.raiseFault .stackOverflow (encode (.call nnn)) s.fetchPc)
  else .next { s.push s.PC with PC := zext16 nnn }

/-- SE Vx, kk (R154). -/
def execSeImm (x : RegIdx) (kk : Byte) (s : State) : Host.Outcome State Fault Refusal :=
  .next (s.skipIf (s.readV x == kk))

/-- SNE Vx, kk (R155). -/
def execSneImm (x : RegIdx) (kk : Byte) (s : State) : Host.Outcome State Fault Refusal :=
  .next (s.skipIf (s.readV x != kk))

/-- SE Vx, Vy (R156). -/
def execSeReg (x y : RegIdx) (s : State) : Host.Outcome State Fault Refusal :=
  .next (s.skipIf (s.readV x == s.readV y))

/-- SNE Vx, Vy (R157). -/
def execSneReg (x y : RegIdx) (s : State) : Host.Outcome State Fault Refusal :=
  .next (s.skipIf (s.readV x != s.readV y))

/-- JP V0, nnn (R158): `PC <- nnn + V[0]`; the sum always fits 16 bits. -/
def execJpV0 (nnn : Addr) (s : State) : Host.Outcome State Fault Refusal :=
  .next { s with PC := BitVec.ofNat 16 (nnn.toNat + (s.readV 0).toNat) }

end Sys2Proof.Machine
end

