-- ==== Sys2Proof/Machine/IndexMemory.lean ====
section
/-! DEFINITION. The index register and memory transfers (43_index_memory R220 to R227). Addresses formed
from I are exact numbers, reduced modulo 4096 byte by byte at the access (R220, 20_memory R61). -/

namespace Sys2Proof.Machine

/-- LD I, nnn (R221). -/
def execLdI (nnn : Addr) (s : State) : Host.Outcome State Fault Refusal :=
  .next { s with I := zext16 nnn }

/-- ADD I, Vx (R222): modulo 65536, VF is not written. -/
def execAddIVx (x : RegIdx) (s : State) : Host.Outcome State Fault Refusal :=
  .next { s with I := s.I + (s.readV x).setWidth 16 }

/-- LD F, Vx (R223): `I <- V[x] * 5`, exact. -/
def execLdFVx (x : RegIdx) (s : State) : Host.Outcome State Fault Refusal :=
  .next { s with I := BitVec.ofNat 16 ((s.readV x).toNat * 5) }

/-- LD B, Vx (R224): the three decimal digits at I, I+1, I+2; I is unchanged. -/
def execLdBVx (x : RegIdx) (s : State) : Host.Outcome State Fault Refusal :=
  .next (s.storeBytes s.I.toNat (bcdDigits (s.readV x)))

/-- LD [I], Vx (R225): V0 to Vx at I, I+1, …; I is unchanged. -/
def execLdMemVx (x : RegIdx) (s : State) : Host.Outcome State Fault Refusal :=
  .next (s.storeBytes s.I.toNat (s.regsUpTo x))

/-- LD Vx, [I] (R226): V0 to Vx from I, I+1, …; I is unchanged. -/
def execLdVxMem (x : RegIdx) (s : State) : Host.Outcome State Fault Refusal :=
  .next (s.loadRegs s.I.toNat (x.val + 1))

end Sys2Proof.Machine
end

