-- ==== Sys2Proof/Machine/Cycle.lean ====
section
/-! DEFINITION. One instruction of a frame (40_cycle R121 to R125), the end of a frame (R131 to R133) and
the frame as one atomic transition (R130). -/

namespace Sys2Proof.Machine

/-- The word at PC: two bytes, big-endian, each address reduced modulo 4096 (R121, 20_memory R62). -/
def State.fetchWord (s : State) : Word :=
  wordOfBytes (s.memRead s.PC.toNat) (s.memRead (s.PC.toNat + 1))

/-- The advance before dispatch, `PC <- (a + 2) mod 65536` (R122), as instruction number `k` of the
frame (R130's `i <- i + 1`; R120's IN_FRAME(i)). -/
def State.advance (k : Nat) (s : State) : State :=
  { s with PC := s.PC + 2, ctl := .inFrame (k + 1) }

/-- What `exec` runs on: the state after the advance, with the registers the instruction writes
recorded as written (D7; log 5). -/
def State.prepared (k : Nat) (i : Instr) (s : State) : State :=
  (s.advance k).markWritten (regsWritten i)

/-- The instruction step (R125) as instruction number `k` of the frame. -/
def instrStep (k : Nat) (s : State) : Host.Outcome State Fault Refusal :=
  match decode s.fetchWord with
  | .error _ => .next ((s.advance k).raiseFault .unknownOpcode s.fetchWord s.PC)
  | .ok i => exec i (s.prepared k i)

/-- Decrement an 8-bit timer if it is not zero (R131). -/
def tickTimer (t : Byte) : Byte := if t = 0 then 0 else t - 1

/-- The timer tick (R131). -/
def State.tick (s : State) : State := { s with DT := tickTimer s.DT, ST := tickTimer s.ST }

/-- Tone synchronisation, after the tick (R132). -/
def State.syncTone (s : State) : State := if s.ST = 0 then s.toneStop else s.toneStart

/-- The end-of-frame sequence in RUNNING: tick, tone, present (R130). -/
def State.endRunning (s : State) : State := s.tick.syncTone.present

/-- The end of a frame (R130): the sequence above if RUNNING, else nothing (R134); the block is IDLE
again. -/
def State.endFrame (s : State) : State :=
  if s.run = .running then { s.endRunning with ctl := .idle } else { s with ctl := .idle }

/-- The while loop of R130: at most `fuel` more instructions, the next one being number `k`; the run
state is checked before every instruction (R134). -/
def runInstrs : Nat → Nat → State → Host.Outcome State Fault Refusal
  | 0, _, s => .next s
  | fuel + 1, k, s =>
    if s.run = .running then
      match instrStep k s with
      | .next s' => runInstrs fuel (k + 1) s'
      | .fault r => .fault r
      | .refused r => .refused r
    else .next s

/-- `run_one_frame()` as one atomic transition (R130, R120). -/
def runOneFrame (s : State) : Host.Outcome State Fault Refusal :=
  if s.run = .halted then .next s
  else
    match runInstrs s.cfg.speed 0 s with
    | .next s' => .next s'.endFrame
    | .fault r => .fault r
    | .refused r => .refused r

end Sys2Proof.Machine
end

