-- ==== Sys2Proof/Machine/Transactions.lean ====
section
/-! DEFINITION. The transactions that the block accepts in control state IDLE (40_cycle R120, 10_state
R48): create (70_reset R320), load_program (R322), key_press (40_cycle R136), the start of a frame
(R130), and the environment's changes of its key table (10_state R44). -/

namespace Sys2Proof.Machine

/-- `create()` (70_reset R320): every component of the block at its reset value. The environment keeps
its key table, its schedule, its random bytes and the outputs it has received (log 19); the creation is
counted (log 5). -/
def State.createBlock (s : State) : State :=
  { State.initial s.cfg (s.creations + 1) with
    keys := s.keys
    inputs := s.inputs
    draws := s.draws
    drawCount := s.drawCount
    outputs := s.outputs }

/-- The space from 0x200 to 0xFFF (60_exceptions R286, D17). -/
def maxProgramBytes : Nat := 3584

/-- `load_program(bytes)` (70_reset R322): the bytes go to 0x200 onward, or a load error and no change. -/
def State.loadProgram (s : State) (bytes : List Byte) : State :=
  if bytes.length = 0 then s.emit (.loadError .empty)
  else if maxProgramBytes < bytes.length then s.emit (.loadError .tooLarge)
  else s.storeBytes 0x200 bytes

/-- The block's part of `key_press(k)` (40_cycle R136): in WAITING_FOR_KEY the key goes to
`V[wait_reg]` and the block runs on; otherwise no effect. -/
def State.keyEvent (s : State) (k : Fin 16) : State :=
  if s.run = .waitingForKey then
    { (s.writeV s.waitReg (BitVec.ofNat 8 k.val)).markWritten [.v s.waitReg] with run := .running }
  else s

/-- `key_press(k)` (10_state R45): the environment's key table shows the key pressed (log 8), and the
event reaches the block. -/
def State.keyPress (s : State) (k : Fin 16) : State :=
  { s with keys := s.keys.set k.val true }.keyEvent k

/-- The start of `run_one_frame()` (40_cycle R130): no effect in HALTED (R138), else IN_FRAME(0). -/
def State.startFrame (s : State) : State :=
  if s.run = .halted then s else { s with ctl := .inFrame 0 }

/-- Accept one transaction. -/
def State.accept (s : State) : Input → State
  | .create => s.createBlock
  | .loadProgram bytes => s.loadProgram bytes
  | .loadUnavailable => s.emit (.loadError .unavailable)
  | .runOneFrame => s.startFrame
  | .keyPress k => s.keyPress k
  | .setKeys ks => { s with keys := ks }

/-- IDLE: accept the next pending transaction; with none pending, the Driver loop's next
`run_one_frame()` (70_reset R323; log 7). -/
def State.acceptNext (s : State) : State :=
  match s.inputs with
  | [] => s.startFrame
  | t :: rest => { s with inputs := rest }.accept t

end Sys2Proof.Machine
end

