-- ==== Sys2Proof/Machine/Step.lean ====
section
/-! DEFINITION. One step of the block's control FSM (40_cycle R120, R130). -/

namespace Sys2Proof.Machine

/-- One step (log 13): IDLE accepts a transaction; IN_FRAME(k) runs one instruction while the budget
lasts and the block is RUNNING (R130, R134), else goes to FRAME_END; FRAME_END ends the frame. -/
def step (s : State) : Host.Outcome State Fault Refusal :=
  match s.ctl with
  | .idle => .next s.acceptNext
  | .inFrame k =>
    if s.run = .running ∧ k < s.cfg.speed then instrStep k s
    else .next { s with ctl := .frameEnd }
  | .frameEnd => .next s.endFrame

/-- The state with an instruction word stored at PC and everything set that the very next step needs to
run it: RUNNING, at the start of a frame, with a budget of at least one instruction (log 16). -/
def State.withFetchWord (s : State) (nbits w : Nat) : State :=
  { s.storeBytes s.PC.toNat [highByte (tableWord nbits w), lowByte (tableWord nbits w)] with
    run := .running
    ctl := .inFrame 0
    cfg := { s.cfg with speed := max s.cfg.speed 1 } }

end Sys2Proof.Machine
end

