-- ==== Sys2Proof/WellFormed.lean ====
section
/-! DEFINITION. Well-formedness of what the types do not already bound. Every operand of Instr has
exactly the width of its field (30_encoding R91), so each instruction is well-formed by its type; the
parameters of 00_scope R7 are plain numbers, and these are their checks. -/

namespace Sys2Proof

/-- The framebuffer has at least one column (00_scope R7, 10_state R42: the wrap divides by it). -/
def Config.widthOk (c : Config) : Bool := 0 < c.fbWidth

/-- The framebuffer has at least one row (00_scope R7, 10_state R42). -/
def Config.heightOk (c : Config) : Bool := 0 < c.fbHeight

/-- `TONE_FREQ` is a positive number (D12). -/
def Config.toneOk (c : Config) : Bool := decide (0 < c.toneFreq)

/-- A configuration the spec admits (00_scope R7). -/
def Config.WellFormed (c : Config) : Prop :=
  c.widthOk = true ∧ c.heightOk = true ∧ c.toneOk = true

end Sys2Proof
end

