-- ==== Sys2Proof/Safety.lean ====
section
/-! DEFINITION. What claims are stated in: the invariant of the machine, reachability, the parts of the
state that a frame statement names, and what each instruction may write (10_state R23, R37, 20_memory
R64, D26). -/

namespace Sys2Proof.Machine

/-! ## The invariant -/

/-- What every state of a run satisfies, beyond the types. -/
structure State.Inv (s : State) : Prop where
  /-- the configuration is one the spec admits (00_scope R7) -/
  cfg : s.cfg.WellFormed
  /-- memory is in canonical form (log 11) -/
  mem : Memory.wf s.cfg.font s.mem
  /-- the framebuffer is in canonical form (log 12) -/
  fb : Framebuffer.wf s.cfg s.fb
  /-- the stack holds at most STACK_DEPTH entries (10_state R20, R28) -/
  stack : ∀ d, s.cfg.stackDepth = some d → s.stack.length ≤ d
  /-- a fault record stands exactly in HALTED (10_state R32, 60_exceptions R283) -/
  fault : s.run = .halted ↔ s.fault.isSome
  /-- a halted block is between transactions: a fault ends the frame at once (R283) -/
  halted : s.run = .halted → s.ctl = .idle
  /-- a frame has executed at most SPEED instructions (40_cycle R120, R135) -/
  budget : ∀ k, s.ctl = .inFrame k → k ≤ s.cfg.speed
  /-- the tone generator is stopped or sounds at TONE_FREQ (10_state R46) -/
  tone : s.tone = none ∨ s.tone = some s.cfg.toneFreq

/-- The states that steps reach from a given one. -/
inductive Reachable (s : State) : State → Prop where
  | start : Reachable s s
  | step {t u : State} : Reachable s t → Machine.step t = .next u → Reachable s u

/-- A step that neither faults nor is refused. -/
def State.Runs (s : State) : Prop := ∃ t, step s = .next t

/-! ## Parts of the state, for frame statements -/

/-- One part of the state; memory byte by byte, registers one by one, the framebuffer as a whole. -/
inductive Part where
  /-- one byte of memory -/
  | mem (a : Fin 4096)
  /-- a general register -/
  | v (x : RegIdx)
  /-- I -/
  | i
  /-- PC -/
  | pc
  /-- the call stack -/
  | stack
  /-- DT -/
  | dt
  /-- ST -/
  | st
  /-- `run` -/
  | run
  /-- `wait_reg` -/
  | waitReg
  /-- the fault record -/
  | fault
  /-- the framebuffer -/
  | fb
  /-- the key table -/
  | keys
  /-- the tone generator -/
  | tone
  /-- the control state -/
  | ctl
  /-- the pending transactions -/
  | inputs
  /-- the random source: the listed draws and the counter of the free ones -/
  | random
  /-- the number of this creation -/
  | creations
  /-- the outputs so far -/
  | outputs
  /-- the written-register record -/
  | written
  /-- the configuration -/
  | cfg
deriving DecidableEq, Repr

/-- Two states agree on one part. -/
def Part.same (s t : State) : Part → Prop
  | .mem a => t.memRead a.val = s.memRead a.val
  | .v x => t.readV x = s.readV x
  | .i => t.I = s.I
  | .pc => t.PC = s.PC
  | .stack => t.stack = s.stack
  | .dt => t.DT = s.DT
  | .st => t.ST = s.ST
  | .run => t.run = s.run
  | .waitReg => t.waitReg = s.waitReg
  | .fault => t.fault = s.fault
  | .fb => t.fb = s.fb
  | .keys => t.keys = s.keys
  | .tone => t.tone = s.tone
  | .ctl => t.ctl = s.ctl
  | .inputs => t.inputs = s.inputs
  | .random => t.draws = s.draws ∧ t.drawCount = s.drawCount
  | .creations => t.creations = s.creations
  | .outputs => t.outputs = s.outputs
  | .written => t.written = s.written
  | .cfg => t.cfg = s.cfg

/-- Nothing changes but the listed parts. -/
def State.unchangedBut (s t : State) (ps : List Part) : Prop :=
  ∀ p, p ∉ ps → Part.same s t p

/-- The parts of the memory bytes `addr`, …, `addr + n - 1`, each address reduced modulo 4096 (R61). -/
def memParts (addr n : Nat) : List Part :=
  (List.range n).map fun k => .mem (Fin.ofNat 4096 (addr + k))

/-- The parts of `V[0] .. V[x]`. -/
def regParts (x : RegIdx) : List Part :=
  (List.range (x.val + 1)).map fun k => .v (Fin.ofNat 16 k)

/-- The part of the state that a register is. -/
def Reg.part : Reg → Part
  | .v x => .v x
  | .i => .i
  | .dt => .dt
  | .st => .st

/-- The state with another value in one register, its low byte in an 8-bit one. -/
def State.setReg (s : State) (w : Word) : Reg → State
  | .v x => s.writeV x (w.setWidth 8)
  | .i => { s with I := w }
  | .dt => { s with DT := w.setWidth 8 }
  | .st => { s with ST := w.setWidth 8 }

/-- The next step reads no register that still holds a free value of `INIT_REGS = Unwritten`, the tick
counted as a read of DT and ST: the steps that D7 and U9 let a claim cover (log 5). The machine goes on
either way. -/
def State.Covered (s : State) : Prop :=
  (∀ k i, s.ctl = .inFrame k → s.run = .running → k < s.cfg.speed → decode s.fetchWord = .ok i →
    s.unwrittenOf (regsRead i) = none) ∧
  (s.ctl = .frameEnd → s.run = .running → s.unwrittenOf [.dt, .st] = none)

/-- What raising a fault changes (60_exceptions R283). -/
def faultParts : List Part := [.run, .fault, .ctl, .outputs]

/-- The four instruction families of the spec's section files. -/
inductive Family where
  /-- 41_flow -/
  | flow
  /-- 42_alu -/
  | alu
  /-- 43_index_memory -/
  | indexMemory
  /-- 44_display_input_timers -/
  | displayInputTimers
deriving DecidableEq, Repr

/-- The family of an instruction (INDEX.md, "Files"). -/
def familyOf : Instr → Family
  | .cls => .displayInputTimers
  | .ret => .flow
  | .jp _ => .flow
  | .call _ => .flow
  | .seImm _ _ => .flow
  | .sneImm _ _ => .flow
  | .seReg _ _ => .flow
  | .ldImm _ _ => .alu
  | .addImm _ _ => .alu
  | .ldReg _ _ => .alu
  | .orReg _ _ => .alu
  | .andReg _ _ => .alu
  | .xorReg _ _ => .alu
  | .addReg _ _ => .alu
  | .sub _ _ => .alu
  | .shr _ _ => .alu
  | .subn _ _ => .alu
  | .shl _ _ => .alu
  | .sneReg _ _ => .flow
  | .ldI _ => .indexMemory
  | .jpV0 _ => .flow
  | .rnd _ _ => .alu
  | .drw _ _ _ => .displayInputTimers
  | .skp _ => .displayInputTimers
  | .sknp _ => .displayInputTimers
  | .ldVxDt _ => .displayInputTimers
  | .ldVxK _ => .displayInputTimers
  | .ldDtVx _ => .displayInputTimers
  | .ldStVx _ => .displayInputTimers
  | .addIVx _ => .indexMemory
  | .ldFVx _ => .indexMemory
  | .ldBVx _ => .indexMemory
  | .ldMemVx _ => .indexMemory
  | .ldVxMem _ => .indexMemory

/-- Everything an instruction may change when it executes in a state (10_state R23, R37, 20_memory R64,
D26): its own effect; for RET on an empty stack and CALL on a full one, the stack
fault and nothing else (60_exceptions R285). -/
def State.mayWrite (s : State) : Instr → List Part
  | .cls => [.fb, .outputs]
  | .ret => if s.stack = [] then faultParts else [.pc, .stack]
  | .jp _ => [.pc]
  | .call _ => if s.stackFull then faultParts else [.pc, .stack]
  | .seImm _ _ => [.pc]
  | .sneImm _ _ => [.pc]
  | .seReg _ _ => [.pc]
  | .ldImm x _ => [.v x]
  | .addImm x _ => [.v x]
  | .ldReg x _ => [.v x]
  | .orReg x _ => [.v x]
  | .andReg x _ => [.v x]
  | .xorReg x _ => [.v x]
  | .addReg x _ => [.v x, .v vF]
  | .sub x _ => [.v x, .v vF]
  | .shr x _ => [.v x, .v vF]
  | .subn x _ => [.v x, .v vF]
  | .shl x _ => [.v x, .v vF]
  | .sneReg _ _ => [.pc]
  | .ldI _ => [.i]
  | .jpV0 _ => [.pc]
  | .rnd x _ => [.v x, .random]
  | .drw _ _ _ => [.v vF, .fb, .outputs]
  | .skp _ => [.pc]
  | .sknp _ => [.pc]
  | .ldVxDt x => [.v x]
  | .ldVxK _ => [.run, .waitReg]
  | .ldDtVx _ => [.dt]
  | .ldStVx _ => [.st]
  | .addIVx _ => [.i]
  | .ldFVx _ => [.i]
  | .ldBVx _ => memParts s.I.toNat 3
  | .ldMemVx x => memParts s.I.toNat (x.val + 1)
  | .ldVxMem x => regParts x

end Sys2Proof.Machine
end

