-- ==== Sys2Proof/Certificates/Slice0/Obligations.lean ====
section
/-! DEFINITION. The statements for the provers, each from the spec's numbered rules. -/

section
open Sys2Proof Sys2Proof.Machine

/-! ## Encoding (30_encoding) -/

/-- Words written out from the spec's tables decode to the instructions they stand for (R96, R97; words
from 41_flow to 44_display_input_timers and 95_test_vectors). -/
def Obligations.SpecWordsDecodeToTheirInstructions : Prop :=
  decode 0x00E0 = .ok .cls ∧ decode 0x00EE = .ok .ret ∧ decode 0x1234 = .ok (.jp 0x234) ∧
  decode 0x3312 = .ok (.seImm 3 0x12) ∧ decode 0x81A6 = .ok (.shr 1 0xA) ∧
  decode 0xA2F0 = .ok (.ldI 0x2F0) ∧ decode 0xD015 = .ok (.drw 0 1 5) ∧
  decode 0xE19E = .ok (.skp 1) ∧ decode 0xF30A = .ok (.ldVxK 3) ∧
  decodeBytes [0xF2, 0x65, 0x12] = .ok (.ldVxMem 2, [0x12]) ∧
  decode 0x5121 = .error (.unknown 0x5121) ∧ decode 0x0000 = .error (.unknown 0x0000)

/-- Decode of encode is the instruction, for every instruction and every operand, as a word and as the
two bytes the hardware stores (R62, R90, R96, R97). -/
def Obligations.DecodeOfEncodeIsTheInstruction : Prop :=
  ∀ (i : Instr) (rest : List Byte),
    decode (encode i) = .ok i ∧ decodeBytes (encodeBytes i ++ rest) = .ok (i, rest)

/-- A word that decodes is the encoding of what it decodes to: no bit of a legal word is dropped. -/
def Obligations.LegalWordIsTheEncodingOfItsInstruction : Prop :=
  ∀ (op : Word) (i : Instr), decode op = .ok i → encode i = op

/-- The decoder follows the 34 rows of R96: a word decodes to a row's instruction exactly when
`op &&& mask = match`. -/
def Obligations.DecodeFollowsTheTableRows : Prop :=
  tableRows.length = 34 ∧
  (∀ (op : Word) (i : Instr), decode op = .ok i →
    ∃ r ∈ tableRows, r.matchesWord op ∧ r.mnemonic = mnemonicOf i) ∧
  (∀ (op : Word) (r : TableRow), r ∈ tableRows → r.matchesWord op →
    ∃ i, decode op = .ok i ∧ mnemonicOf i = r.mnemonic)

/-- No two rows of R96 match one word, and a word that no row matches is UNKNOWN (R97). -/
def Obligations.RowsAreDisjointAndTheRestIsUnknown : Prop :=
  (∀ (op : Word) (r r' : TableRow), r ∈ tableRows → r' ∈ tableRows →
    r.matchesWord op → r'.matchesWord op → r = r') ∧
  (∀ op : Word, (∀ r ∈ tableRows, ¬ r.matchesWord op) → decode op = .error (.unknown op))

/-- The illegal words are exactly those that the table of R98 lists by family. -/
def Obligations.IllegalWordsAreThoseOfTheFamilyTable : Prop :=
  ∀ op : Word, decode op = .error (.unknown op) ↔
    (op.toNat / 4096 = 0x0 ∧ op ≠ 0x00E0 ∧ op ≠ 0x00EE) ∨
    (op.toNat / 4096 = 0x5 ∧ op.toNat % 16 ≠ 0) ∨
    (op.toNat / 4096 = 0x8 ∧ op.toNat % 16 ∈ [0x8, 0x9, 0xA, 0xB, 0xC, 0xD, 0xF]) ∨
    (op.toNat / 4096 = 0x9 ∧ op.toNat % 16 ≠ 0) ∨
    (op.toNat / 4096 = 0xE ∧ op.toNat % 256 ∉ [0x9E, 0xA1]) ∨
    (op.toNat / 4096 = 0xF ∧
      op.toNat % 256 ∉ [0x07, 0x0A, 0x15, 0x18, 0x1E, 0x29, 0x33, 0x55, 0x65])

/-! ## Fetch and the instruction step (40_cycle R121 to R125) -/

/-- The fetched word is big-endian and each of its two addresses is reduced modulo 4096 (R62, R121). -/
def Obligations.FetchIsBigEndianModulo4096 : Prop :=
  ∀ s : State, s.fetchWord.toNat =
    (s.memRead (s.PC.toNat % 4096)).toNat * 256 + (s.memRead ((s.PC.toNat + 1) % 4096)).toNat

/-- A step inside a frame runs the instruction that the two bytes at PC decode to, on the state whose PC
is advanced by 2 (R122 to R125); around it the model counts the instruction of the frame (R130) and
records the registers it writes (D7; log 5). -/
def Obligations.StepRunsTheDecodedInstruction : Prop :=
  ∀ (s : State) (k : Nat) (i : Instr),
    s.ctl = .inFrame k → s.run = .running → k < s.cfg.speed →
    decodeBytes [s.memRead s.PC.toNat, s.memRead (s.PC.toNat + 1)] = .ok (i, []) →
    step s = exec i { s with
      PC := s.PC + 2
      ctl := .inFrame (k + 1)
      written := (regsWritten i).foldl Written.mark s.written }

/-- An illegal word raises UNKNOWN_OPCODE: the record holds the word and its own address, PC keeps the
advance, the block halts, the report is emitted once and the frame is over (R281, R283). -/
def Obligations.UnknownWordHaltsTheBlock : Prop :=
  ∀ (s : State) (k : Nat) (e : DecodeError),
    s.ctl = .inFrame k → s.run = .running → k < s.cfg.speed →
    decode s.fetchWord = .error e →
    step s = .next { s with
      PC := s.PC + 2
      fault := some ⟨.unknownOpcode, s.fetchWord, s.PC⟩
      run := .halted
      ctl := .idle
      outputs := s.outputs ++ [.faultReport ⟨.unknownOpcode, s.fetchWord, s.PC⟩] }

/-! ## Faults (60_exceptions) -/

/-- Faults are precise: a step that halts a running block advances PC, writes the record of the fetched
word and its address, emits the one report, ends the frame and changes nothing else (R283, R285). -/
def Obligations.FaultingStepChangesNothingElse : Prop :=
  ∀ s t : State, s.run = .running → step s = .next t → t.run = .halted →
    ∃ c : FaultCause,
      t.fault = some ⟨c, s.fetchWord, s.PC⟩ ∧
      t.outputs = s.outputs ++ [.faultReport ⟨c, s.fetchWord, s.PC⟩] ∧
      t.PC = s.PC + 2 ∧ t.ctl = .idle ∧
      s.unchangedBut t [.pc, .run, .fault, .ctl, .outputs]

/-- A halted block stays halted with its record, whatever the environment does short of `create`; only
memory, through a program load, and the environment's own state can change (R283, R291). -/
def Obligations.OnlyCreateLeavesHalted : Prop :=
  ∀ s t : State, s.Inv → s.run = .halted → (∀ rest, s.inputs ≠ .create :: rest) →
    step s = .next t →
    t.run = .halted ∧ t.fault = s.fault ∧
    s.unchangedBut t (.keys :: .inputs :: .outputs :: memParts 0x200 3584)

/-- The transitions of `run` are those of R139, and no others. -/
def Obligations.RunStateTransitionsAreComplete : Prop :=
  ∀ s t : State, step s = .next t → t.run ≠ s.run →
    (∃ k x, s.ctl = .inFrame k ∧ s.run = .running ∧ decode s.fetchWord = .ok (.ldVxK x) ∧
      t.run = .waitingForKey ∧ t.waitReg = x) ∨
    (∃ (key : Fin 16) (rest : List Input), s.ctl = .idle ∧ s.inputs = .keyPress key :: rest ∧
      s.run = .waitingForKey ∧ t.run = .running ∧ (t.readV s.waitReg).toNat = key.val) ∨
    (∃ k c, s.ctl = .inFrame k ∧ s.run = .running ∧ t.run = .halted ∧
      t.fault = some ⟨c, s.fetchWord, s.PC⟩ ∧ t.ctl = .idle) ∨
    (∃ rest, s.ctl = .idle ∧ s.inputs = .create :: rest ∧ t.run = .running)

/-- With `INIT_REGS = Zero` every step of every state has a next state. That an illegal word and a stack
fault answer a next state too is the model's choice (log 14, DESIGN CHOICE): the fault's effect of R283
is taken as one, and a HALTED block keeps stepping without effect (R138); R287 names what never faults. -/
def Obligations.EveryStepCompletesWithZeroedRegisters : Prop :=
  ∀ s : State, s.cfg.initRegs = .zero → s.Runs

/-- With `INIT_REGS = Unwritten` the machine goes on: every step completes, create leaves a free value of
that creation in each of V, I, DT and ST, and no claim about a covered step depends on a register not
written since (R7, D7, U9): with any other value in it the step comes out the same, that register
apart. The free values, the record of writes and that the tick reads DT and ST are the model's (log 5). -/
def Obligations.UnwrittenRegistersHoldFreeValues : Prop :=
  ∀ s : State, s.cfg.initRegs = .unwritten →
    s.Runs ∧
    (∀ rest, s.ctl = .idle → s.inputs = .create :: rest → ∃ t, step s = .next t ∧
      t.creations = s.creations + 1 ∧
      (∀ x, t.readV x = (Config.powerUp t.creations x.val).setWidth 8) ∧
      t.I = Config.powerUp t.creations 16 ∧
      t.DT = (Config.powerUp t.creations 17).setWidth 8 ∧
      t.ST = (Config.powerUp t.creations 18).setWidth 8 ∧
      ∀ r, t.written.has r = false) ∧
    (∀ (r : Reg) (w : Word) (t : State), s.Covered → s.written.has r = false → step s = .next t →
      ∃ t', step (s.setReg w r) = .next t' ∧ ∀ p, p ≠ r.part → Part.same t t' p)

/-! ## Frames and the pause (40_cycle R130 to R139) -/

/-- The end of a frame: in RUNNING both timers count down by one unless zero, then exactly one tone call
by the new ST, then one present; in any other run state nothing (R131, R132, R133). -/
def Obligations.FrameEndTicksTonesAndPresents : Prop :=
  ∀ s : State, s.ctl = .frameEnd →
    (s.run = .running →
      ∃ t, step s = .next t ∧
        t.DT.toNat = s.DT.toNat - 1 ∧ t.ST.toNat = s.ST.toNat - 1 ∧
        t.tone = (if t.ST.toNat > 0 then some s.cfg.toneFreq else none) ∧
        t.outputs = s.outputs ++
          [if t.ST.toNat > 0 then .toneStart s.cfg.toneFreq else .toneStop, .fbPresent s.fb] ∧
        t.ctl = .idle ∧ s.unchangedBut t [.dt, .st, .tone, .outputs, .ctl]) ∧
    (s.run ≠ .running → step s = .next { s with ctl := .idle })

/-- Fx0A begins the wait and leaves V[x] alone, whatever keys are held (R256, R137); no further
instruction of the frame executes, and the frame ends without a tick, a tone call or a present (R134). -/
def Obligations.KeyWaitBeginsAndEndsTheFrame : Prop :=
  ∀ (s : State) (x : RegIdx),
    ∃ t, exec (.ldVxK x) s = .next t ∧ t.run = .waitingForKey ∧ t.waitReg = x ∧
      s.unchangedBut t [.run, .waitReg] ∧
      ∀ k, s.ctl = .inFrame k → Host.Core.run core 2 t = .next { t with ctl := .idle }

/-- Taking each instruction as a step and taking the frame as one atomic transition are the same (R120,
R130): from IDLE, with the frame next, at most SPEED + 3 steps end exactly where the atomic frame
ends, and that is IDLE again. The bound counts the model's steps (log 13, DESIGN CHOICE). -/
def Obligations.SteppedFrameEqualsAtomicFrame : Prop :=
  ∀ (s : State) (rest : List Input),
    s.ctl = .idle → s.inputs = .runOneFrame :: rest →
    (∃ n, 1 ≤ n ∧ n ≤ s.cfg.speed + 3 ∧
      Host.Core.run core n s = runOneFrame { s with inputs := rest }) ∧
    ∀ t, runOneFrame { s with inputs := rest } = .next t → t.ctl = .idle

/-- A frame while waiting or halted changes nothing and outputs nothing (R138). -/
def Obligations.FrameWhileWaitingOrHaltedDoesNothing : Prop :=
  ∀ (s : State) (rest : List Input),
    s.ctl = .idle → s.inputs = .runOneFrame :: rest →
    (s.run = .halted → step s = .next { s with inputs := rest }) ∧
    (s.run = .waitingForKey → Host.Core.run core 3 s = .next { s with inputs := rest })

/-- A key press completes a pending wait and has no effect on the block otherwise (R136, R45). -/
def Obligations.KeyPressCompletesOnlyAPendingWait : Prop :=
  ∀ (s : State) (k : Fin 16) (rest : List Input),
    s.ctl = .idle → s.inputs = .keyPress k :: rest →
    (s.run = .waitingForKey → ∃ t, step s = .next t ∧
      (t.readV s.waitReg).toNat = k.val ∧ t.run = .running ∧
      s.unchangedBut t [.v s.waitReg, .run, .keys, .inputs, .written]) ∧
    (s.run ≠ .waitingForKey → ∃ t, step s = .next t ∧ s.unchangedBut t [.keys, .inputs])

/-- During a frame nothing outside the block acts: the key table and the schedule stand still (R45, R70,
D14). -/
def Obligations.EnvironmentActsOnlyBetweenFrames : Prop :=
  ∀ s t : State, s.ctl ≠ .idle → step s = .next t → t.keys = s.keys ∧ t.inputs = s.inputs

/-! ## Reset and program load (70_reset) -/

/-- Reset leaves the values of R20 and R320 (the register zeros are the spec's D7; `wait_reg`, which the
spec leaves unspecified, is not stated). -/
def Obligations.ResetLeavesTheStatedValues : Prop :=
  State.reset.PC = 0x200 ∧ (∀ x, State.reset.readV x = 0) ∧ State.reset.I = 0 ∧
  State.reset.stack = [] ∧ State.reset.DT = 0 ∧ State.reset.ST = 0 ∧
  State.reset.run = .running ∧ State.reset.fault = none ∧
  (∀ px py, State.reset.pixelOn px py = false) ∧ State.reset.tone = none ∧ State.reset.outputs = [] ∧
  (∀ a, 80 ≤ a → a < 4096 → State.reset.memRead a = 0) ∧
  (∀ (a : Nat) (h : a < 80), State.reset.memRead a = State.reset.cfg.font[a])

/-- `create` gives every component of the block its reset value, in any run state (R320, R321). That the
tone generator is then stopped is the model's choice (log 10: R320 assumes it stopped and issues no
call), and so is that the outputs received so far are kept (log 19). -/
def Obligations.CreateResetsTheBlock : Prop :=
  ∀ (s : State) (rest : List Input),
    s.ctl = .idle → s.inputs = .create :: rest →
    ∃ t, step s = .next t ∧
      (∀ (a : Nat) (h : a < 80), t.memRead a = s.cfg.font[a]) ∧
      (∀ a, 80 ≤ a → a < 4096 → t.memRead a = 0) ∧
      (s.cfg.initRegs = .zero → (∀ x, t.readV x = 0) ∧ t.I = 0 ∧ t.DT = 0 ∧ t.ST = 0) ∧
      t.PC = 0x200 ∧ t.stack = [] ∧ t.run = .running ∧ t.fault = none ∧
      (∀ px py, t.pixelOn px py = false) ∧ t.tone = none ∧ t.outputs = s.outputs ∧ t.cfg = s.cfg

/-- A program load writes its bytes at 0x200 onward and changes nothing else, in any run state; an empty
load and a load of more than 3584 bytes emit their error and change no state (R322, R286). -/
def Obligations.ProgramLoadWritesExactlyItsBytes : Prop :=
  ∀ (s : State) (bytes : List Byte) (rest : List Input),
    Memory.wf s.cfg.font s.mem → s.ctl = .idle → s.inputs = .loadProgram bytes :: rest →
    (0 < bytes.length → bytes.length ≤ 3584 →
      ∃ t, step s = .next t ∧
        (∀ (k : Nat) (h : k < bytes.length), t.memRead (0x200 + k) = bytes[k]) ∧
        s.unchangedBut t (.inputs :: memParts 0x200 bytes.length)) ∧
    (bytes.length = 0 → step s = .next { s with
      inputs := rest, outputs := s.outputs ++ [.loadError .empty] }) ∧
    (3584 < bytes.length → step s = .next { s with
      inputs := rest, outputs := s.outputs ++ [.loadError .tooLarge] })

/-- A frame before any load halts on the zero word at 0x200 (R324). -/
def Obligations.FrameBeforeAnyLoadHalts : Prop :=
  ∃ t, Host.Core.run core 2 { State.reset with inputs := [.runOneFrame] } = .next t ∧
    t.fault = some ⟨.unknownOpcode, 0x0000, 0x200⟩ ∧ t.PC = 0x202 ∧ t.run = .halted ∧
    t.outputs = [.faultReport ⟨.unknownOpcode, 0x0000, 0x200⟩]

/-! ## Invariants and whole-machine rules -/

/-- Reset satisfies the invariant. -/
def Obligations.ResetSatisfiesTheInvariant : Prop := State.reset.Inv

/-- Every step from a state that satisfies the invariant ends in one that does. -/
def Obligations.StepKeepsTheInvariant : Prop :=
  ∀ s t : State, s.Inv → step s = .next t → t.Inv

/-- No step changes the configuration (R36). -/
def Obligations.ConfigurationIsFixedForLife : Prop :=
  ∀ s t : State, step s = .next t → t.cfg = s.cfg

/-- Memory changes only by Fx33, Fx55, a program load and `create` (R64, R67). -/
def Obligations.OnlyStoresLoadsAndCreateChangeMemory : Prop :=
  ∀ s t : State, step s = .next t → t.mem ≠ s.mem →
    (∃ k x, s.ctl = .inFrame k ∧
      (decode s.fetchWord = .ok (.ldBVx x) ∨ decode s.fetchWord = .ok (.ldMemVx x))) ∨
    (∃ bytes rest, s.ctl = .idle ∧ s.inputs = .loadProgram bytes :: rest) ∨
    (∃ rest, s.ctl = .idle ∧ s.inputs = .create :: rest)

/-- The call stack changes only by CALL and RET, and by `create` (R28). -/
def Obligations.OnlyCallRetAndCreateChangeTheStack : Prop :=
  ∀ s t : State, step s = .next t → t.stack ≠ s.stack →
    (∃ k nnn, s.ctl = .inFrame k ∧ decode s.fetchWord = .ok (.call nnn)) ∨
    (∃ k, s.ctl = .inFrame k ∧ decode s.fetchWord = .ok .ret) ∨
    (∃ rest, s.ctl = .idle ∧ s.inputs = .create :: rest)

/-- The pixel grid changes only by 00E0 and Dxyn, and by `create` (R133, R40). -/
def Obligations.OnlyClsDrwAndCreateChangeTheGrid : Prop :=
  ∀ s t : State, step s = .next t → t.fb ≠ s.fb →
    (∃ k, s.ctl = .inFrame k ∧ decode s.fetchWord = .ok .cls) ∨
    (∃ k x y n, s.ctl = .inFrame k ∧ decode s.fetchWord = .ok (.drw x y n)) ∨
    (∃ rest, s.ctl = .idle ∧ s.inputs = .create :: rest)

/-- The timers change only by Fx15, Fx18, the tick of a frame that ends RUNNING, and `create` (R29,
R30). -/
def Obligations.TimersChangeOnlyByLoadsTicksAndCreate : Prop :=
  ∀ s t : State, step s = .next t → (t.DT ≠ s.DT ∨ t.ST ≠ s.ST) →
    (∃ k x, s.ctl = .inFrame k ∧ t.ST = s.ST ∧ decode s.fetchWord = .ok (.ldDtVx x)) ∨
    (∃ k x, s.ctl = .inFrame k ∧ t.DT = s.DT ∧ decode s.fetchWord = .ok (.ldStVx x)) ∨
    (s.ctl = .frameEnd ∧ s.run = .running) ∨
    (∃ rest, s.ctl = .idle ∧ s.inputs = .create :: rest)

/-- A register that R23 does not list as read by an instruction does not matter to it: with another
value in it, everything else comes out the same, and the register itself ends as the instruction
leaves it if R23 lists it as written, else as it was. -/
def Obligations.RegisterNotListedAsReadDoesNotMatter : Prop :=
  ∀ (i : Instr) (r : RegIdx) (b : Byte) (s t : State),
    Reg.v r ∉ regsRead i → exec i s = .next t →
    ∃ t', exec i (s.writeV r b) = .next t' ∧
      (∀ p, p ≠ .v r → Part.same t t' p) ∧
      t'.readV r = (if Reg.v r ∈ regsWritten i then t.readV r else b)

/-- Only I modulo 4096 matters to an instruction (R26, R27): with another I of the same low 12 bits,
everything else comes out the same, and the two I still agree in their low 12 bits. -/
def Obligations.OnlyTheLowTwelveBitsOfIMatter : Prop :=
  ∀ (i : Instr) (s t : State) (j : Word), j.toNat % 4096 = s.I.toNat % 4096 →
    exec i s = .next t →
    ∃ t', exec i { s with I := j } = .next t' ∧ (∀ p, p ≠ .i → Part.same t t' p) ∧
      t'.I.toNat % 4096 = t.I.toNat % 4096

/-! ## Frames of the instruction families -/

/-- An instruction of 41_flow changes PC, the stack for CALL and RET, and nothing else; a stack fault
changes the fault record, the run and control state and the outputs, and nothing else (R150, R285). -/
def Obligations.FlowInstructionsChangeNothingElse : Prop :=
  ∀ (i : Instr) (s t : State), familyOf i = .flow → exec i s = .next t →
    s.unchangedBut t (s.mayWrite i)

/-- An instruction of 42_alu changes its destination register, VF where R37 says so, the random source
for Cxkk, and nothing else (R180, D26). -/
def Obligations.AluInstructionsChangeNothingElse : Prop :=
  ∀ (i : Instr) (s t : State), familyOf i = .alu → exec i s = .next t →
    s.unchangedBut t (s.mayWrite i)

/-- An instruction of 43_index_memory changes I, or the bytes it stores at I onward modulo 4096, or the
registers it loads, and nothing else (R220, R64, D26). -/
def Obligations.IndexMemoryInstructionsChangeNothingElse : Prop :=
  ∀ (i : Instr) (s t : State), familyOf i = .indexMemory → Memory.wf s.cfg.font s.mem →
    exec i s = .next t → s.unchangedBut t (s.mayWrite i)

/-- An instruction of 44_display_input_timers changes what its rule names and nothing else; none writes
memory or I (R250). -/
def Obligations.DisplayInstructionsChangeNothingElse : Prop :=
  ∀ (i : Instr) (s t : State), familyOf i = .displayInputTimers → exec i s = .next t →
    s.unchangedBut t (s.mayWrite i)

/-! ## Control flow (41_flow) -/

/-- JP and JP V0 (R152, R158). -/
def Obligations.JumpsSetThePc : Prop :=
  ∀ (nnn : Addr) (s : State),
    (∃ t, exec (.jp nnn) s = .next t ∧ t.PC.toNat = nnn.toNat ∧ s.unchangedBut t [.pc]) ∧
    (∃ t, exec (.jpV0 nnn) s = .next t ∧ t.PC.toNat = nnn.toNat + (s.readV 0).toNat ∧
      s.unchangedBut t [.pc])

/-- CALL pushes the advanced PC and jumps; on a full stack it raises STACK_OVERFLOW and pushes nothing
(R153; `a` is the address the CALL was fetched from). -/
def Obligations.CallPushesTheAdvancedPcOrOverflows : Prop :=
  ∀ (nnn : Addr) (s : State) (a : Word), s.PC = a + 2 →
    ((∀ d, s.cfg.stackDepth = some d → s.stack.length ≠ d) →
      ∃ t, exec (.call nnn) s = .next t ∧ t.stack = s.stack ++ [a + 2] ∧
        t.PC.toNat = nnn.toNat ∧ s.unchangedBut t [.pc, .stack]) ∧
    (∀ d, s.cfg.stackDepth = some d → s.stack.length = d →
      ∃ t op, exec (.call nnn) s = .next t ∧ op.toNat = 0x2000 + nnn.toNat ∧
        t.fault = some ⟨.stackOverflow, op, a⟩ ∧ t.run = .halted ∧ t.ctl = .idle ∧
        t.outputs = s.outputs ++ [.faultReport ⟨.stackOverflow, op, a⟩] ∧
        s.unchangedBut t [.run, .fault, .ctl, .outputs])

/-- RET pops the most recently pushed value into PC; on an empty stack it raises STACK_UNDERFLOW (R151;
`a` is the address the RET was fetched from). -/
def Obligations.RetPopsIntoPcOrUnderflows : Prop :=
  ∀ (s : State) (a : Word), s.PC = a + 2 →
    (∀ (below : List Word) (v : Word), s.stack = below ++ [v] →
      ∃ t, exec .ret s = .next t ∧ t.PC = v ∧ t.stack = below ∧
        s.unchangedBut t [.pc, .stack]) ∧
    (s.stack = [] →
      ∃ t, exec .ret s = .next t ∧ t.fault = some ⟨.stackUnderflow, 0x00EE, a⟩ ∧
        t.run = .halted ∧ t.ctl = .idle ∧
        t.outputs = s.outputs ++ [.faultReport ⟨.stackUnderflow, 0x00EE, a⟩] ∧
        s.unchangedBut t [.run, .fault, .ctl, .outputs])

/-- A CALL at `a` that does not overflow, then, with the stack as it left it, a RET: PC is `a + 2` and
the stack is as before the CALL (R159). -/
def Obligations.RetReturnsBehindTheCall : Prop :=
  ∀ (nnn : Addr) (s t u : State) (a : Word), s.PC = a + 2 →
    exec (.call nnn) s = .next t → t.run = s.run → s.run = .running → u.stack = t.stack →
    ∃ w, exec .ret u = .next w ∧ w.PC = a + 2 ∧ w.stack = s.stack

/-- The register skips: PC is `a + 4` when the condition holds, else `a + 2` (R154 to R157, R160). -/
def Obligations.RegisterSkipsAdvanceByFourOrTwo : Prop :=
  ∀ (x y : RegIdx) (kk : Byte) (s : State) (a : Word), s.PC = a + 2 →
    (∃ t, exec (.seImm x kk) s = .next t ∧
      t.PC = (if (s.readV x).toNat = kk.toNat then a + 4 else a + 2) ∧ s.unchangedBut t [.pc]) ∧
    (∃ t, exec (.sneImm x kk) s = .next t ∧
      t.PC = (if (s.readV x).toNat ≠ kk.toNat then a + 4 else a + 2) ∧ s.unchangedBut t [.pc]) ∧
    (∃ t, exec (.seReg x y) s = .next t ∧
      t.PC = (if (s.readV x).toNat = (s.readV y).toNat then a + 4 else a + 2) ∧
      s.unchangedBut t [.pc]) ∧
    (∃ t, exec (.sneReg x y) s = .next t ∧
      t.PC = (if (s.readV x).toNat ≠ (s.readV y).toNat then a + 4 else a + 2) ∧
      s.unchangedBut t [.pc])

/-! ## Register arithmetic and logic (42_alu) -/

/-- LD Vx, kk; LD Vx, Vy; OR, AND and XOR, bit by bit; ADD Vx, kk, modulo 256: the value of V[x]; VF is
written only as the destination (R181 to R186). -/
def Obligations.LoadsLogicAndAddImmediateWriteOnlyTheDestination : Prop :=
  ∀ (x y : RegIdx) (kk : Byte) (s : State),
    (∃ t, exec (.ldImm x kk) s = .next t ∧ t.readV x = kk ∧ s.unchangedBut t [.v x]) ∧
    (∃ t, exec (.ldReg x y) s = .next t ∧ t.readV x = s.readV y ∧ s.unchangedBut t [.v x]) ∧
    (∃ t, exec (.orReg x y) s = .next t ∧ (∀ k, (t.readV x).getLsbD k =
      ((s.readV x).getLsbD k || (s.readV y).getLsbD k)) ∧ s.unchangedBut t [.v x]) ∧
    (∃ t, exec (.andReg x y) s = .next t ∧ (∀ k, (t.readV x).getLsbD k =
      ((s.readV x).getLsbD k && (s.readV y).getLsbD k)) ∧ s.unchangedBut t [.v x]) ∧
    (∃ t, exec (.xorReg x y) s = .next t ∧ (∀ k, (t.readV x).getLsbD k =
      ((s.readV x).getLsbD k != (s.readV y).getLsbD k)) ∧ s.unchangedBut t [.v x]) ∧
    (∃ t, exec (.addImm x kk) s = .next t ∧
      (t.readV x).toNat = ((s.readV x).toNat + kk.toNat) % 256 ∧ s.unchangedBut t [.v x])

/-- ADD Vx, Vy: VF ends as the carry for every x and y; V[x] ends as the sum modulo 256 unless x is F,
whose sum is lost (R187). -/
def Obligations.AddSetsVfToTheCarry : Prop :=
  ∀ (x y : RegIdx) (s : State),
    ∃ t, exec (.addReg x y) s = .next t ∧
      (t.readV vF).toNat = (if (s.readV x).toNat + (s.readV y).toNat > 255 then 1 else 0) ∧
      (x ≠ vF → (t.readV x).toNat = ((s.readV x).toNat + (s.readV y).toNat) % 256) ∧
      s.unchangedBut t [.v x, .v vF]

/-- SUB Vx, Vy: VF is written first, then the difference of the registers as they then stand, in each of
the cases of x and y (R188). -/
def Obligations.SubSetsVfThenSubtracts : Prop :=
  ∀ (x y : RegIdx) (s : State) (f : Nat),
    f = (if (s.readV x).toNat > (s.readV y).toNat then 1 else 0) →
    ∃ t, exec (.sub x y) s = .next t ∧ s.unchangedBut t [.v x, .v vF] ∧
      (x ≠ vF → (t.readV vF).toNat = f) ∧
      (x ≠ vF → y ≠ vF →
        (t.readV x).toNat = ((s.readV x).toNat + 256 - (s.readV y).toNat) % 256) ∧
      (x = vF → y ≠ vF → (t.readV vF).toNat = (f + 256 - (s.readV y).toNat) % 256) ∧
      (x ≠ vF → y = vF → (t.readV x).toNat = ((s.readV x).toNat + 256 - f) % 256) ∧
      (x = vF → y = vF → (t.readV vF).toNat = 0)

/-- SUBN Vx, Vy: VF is written first, then the reverse difference of the registers as they then stand,
in each of the cases of x and y (R190). -/
def Obligations.SubnSetsVfThenSubtracts : Prop :=
  ∀ (x y : RegIdx) (s : State) (f : Nat),
    f = (if (s.readV y).toNat > (s.readV x).toNat then 1 else 0) →
    ∃ t, exec (.subn x y) s = .next t ∧ s.unchangedBut t [.v x, .v vF] ∧
      (x ≠ vF → (t.readV vF).toNat = f) ∧
      (x ≠ vF → y ≠ vF →
        (t.readV x).toNat = ((s.readV y).toNat + 256 - (s.readV x).toNat) % 256) ∧
      (x = vF → y ≠ vF → (t.readV vF).toNat = ((s.readV y).toNat + 256 - f) % 256) ∧
      (x ≠ vF → y = vF → (t.readV x).toNat = (f + 256 - (s.readV x).toNat) % 256) ∧
      (x = vF → y = vF → (t.readV vF).toNat = 0)

/-- SHR and SHL: VF is the bit shifted out, as 0 or 1 for SHR and as the mask 0 or 0x80 for SHL; V[x] is
shifted, whatever y is; with x = F the shifted flag, 0, is what stays (R189, R191, R100). -/
def Obligations.ShiftsKeepTheirUnequalFlags : Prop :=
  ∀ (x y : RegIdx) (s : State),
    (∃ t, exec (.shr x y) s = .next t ∧ s.unchangedBut t [.v x, .v vF] ∧
      (x ≠ vF → (t.readV vF).toNat = (s.readV x).toNat % 2 ∧
        (t.readV x).toNat = (s.readV x).toNat / 2) ∧
      (x = vF → (t.readV vF).toNat = 0)) ∧
    (∃ t, exec (.shl x y) s = .next t ∧ s.unchangedBut t [.v x, .v vF] ∧
      (x ≠ vF → (t.readV vF).toNat = (if (s.readV x).toNat ≥ 128 then 0x80 else 0x00) ∧
        (t.readV x).toNat = (s.readV x).toNat * 2 % 256) ∧
      (x = vF → (t.readV vF).toNat = 0))

/-- RND completes in every state with one fresh byte under the mask: the byte the environment listed next,
which is used up, or, with none listed, the free byte of the counter, which goes up by one; whatever
the byte, only bits of the mask can be set (R192, R47; the list, the counter and the free byte are the
model's, log 6). -/
def Obligations.RandomByteIsMaskedAndFresh : Prop :=
  ∀ (x : RegIdx) (kk : Byte) (s : State),
    (∀ (r : Byte) (rest : List Byte), s.draws = r :: rest →
      ∃ t, exec (.rnd x kk) s = .next t ∧ t.readV x = r &&& kk ∧ t.draws = rest ∧
        t.drawCount = s.drawCount ∧ s.unchangedBut t [.v x, .random]) ∧
    (s.draws = [] →
      ∃ t, exec (.rnd x kk) s = .next t ∧ t.readV x = Config.freeRandom s.drawCount &&& kk ∧
        t.draws = [] ∧ t.drawCount = s.drawCount + 1 ∧ s.unchangedBut t [.v x, .random]) ∧
    (∃ t, exec (.rnd x kk) s = .next t ∧ t.readV x &&& ~~~kk = 0 ∧
      (t.draws, t.drawCount) ≠ (s.draws, s.drawCount) ∧ s.unchangedBut t [.v x, .random])

/-! ## Index register and memory (43_index_memory) -/

/-- LD I, ADD I and LD F: the value of I, exact or modulo 65536; VF is not written (R221 to R223). -/
def Obligations.IndexRegisterWrites : Prop :=
  ∀ (nnn : Addr) (x : RegIdx) (s : State),
    (∃ t, exec (.ldI nnn) s = .next t ∧ t.I.toNat = nnn.toNat ∧ s.unchangedBut t [.i]) ∧
    (∃ t, exec (.addIVx x) s = .next t ∧
      t.I.toNat = (s.I.toNat + (s.readV x).toNat) % 65536 ∧ s.unchangedBut t [.i]) ∧
    (∃ t, exec (.ldFVx x) s = .next t ∧ t.I.toNat = (s.readV x).toNat * 5 ∧
      s.unchangedBut t [.i])

/-- LD B, Vx: the decimal digits at I, I+1 and I+2 modulo 4096; nothing else changes (R224). -/
def Obligations.BcdDigitsAreStoredAtI : Prop :=
  ∀ (x : RegIdx) (s : State), Memory.wf s.cfg.font s.mem →
    ∃ t, exec (.ldBVx x) s = .next t ∧
      (t.memRead s.I.toNat).toNat = (s.readV x).toNat / 100 ∧
      (t.memRead (s.I.toNat + 1)).toNat = (s.readV x).toNat / 10 % 10 ∧
      (t.memRead (s.I.toNat + 2)).toNat = (s.readV x).toNat % 10 ∧
      s.unchangedBut t (memParts s.I.toNat 3)

/-- LD [I], Vx: V0 to Vx at I onward modulo 4096; I and every other byte are unchanged (R225). -/
def Obligations.RegistersAreStoredAtI : Prop :=
  ∀ (x : RegIdx) (s : State), Memory.wf s.cfg.font s.mem →
    ∃ t, exec (.ldMemVx x) s = .next t ∧
      (∀ k : RegIdx, k ≤ x → t.memRead (s.I.toNat + k.val) = s.readV k) ∧
      s.unchangedBut t (memParts s.I.toNat (x.val + 1))

/-- LD Vx, [I]: V0 to Vx from I onward modulo 4096; I and every other register are unchanged (R226). -/
def Obligations.RegistersAreLoadedFromI : Prop :=
  ∀ (x : RegIdx) (s : State),
    ∃ t, exec (.ldVxMem x) s = .next t ∧
      (∀ k : RegIdx, k ≤ x → t.readV k = s.memRead (s.I.toNat + k.val)) ∧
      s.unchangedBut t (regParts x)

/-- Fx55 then Fx65 with the same x and I, and the stored bytes untouched in between, restores V0 to Vx;
Fx33 then F265 loads the three digits (R227). -/
def Obligations.StoreThenLoadRestoresTheRegisters : Prop :=
  ∀ (x : RegIdx) (s t u : State), Memory.wf s.cfg.font s.mem → u.I = s.I →
    (exec (.ldMemVx x) s = .next t →
      (∀ k, k ≤ x.val → u.memRead (s.I.toNat + k) = t.memRead (s.I.toNat + k)) →
      ∃ w, exec (.ldVxMem x) u = .next w ∧ ∀ k : RegIdx, k ≤ x → w.readV k = s.readV k) ∧
    (exec (.ldBVx x) s = .next t →
      (∀ k, k < 3 → u.memRead (s.I.toNat + k) = t.memRead (s.I.toNat + k)) →
      ∃ w, exec (.ldVxMem 2) u = .next w ∧ (w.readV 0).toNat = (s.readV x).toNat / 100 ∧
        (w.readV 1).toNat = (s.readV x).toNat / 10 % 10 ∧
        (w.readV 2).toNat = (s.readV x).toNat % 10)

/-- A store is seen by the very next fetch: a block store of two or more registers over the bytes at PC
changes the next fetched word to them (R73). -/
def Obligations.StoreIsSeenByTheNextFetch : Prop :=
  ∀ (x : RegIdx) (s t : State), Memory.wf s.cfg.font s.mem → 1 ≤ x.val →
    s.I.toNat % 4096 = s.PC.toNat % 4096 → exec (.ldMemVx x) s = .next t →
    t.fetchWord.toNat = (s.readV 0).toNat * 256 + (s.readV 1).toNat

/-! ## Display, keys and timers (44_display_input_timers) -/

/-- CLS: every pixel off, nothing else but the call on the port (R251, R41). -/
def Obligations.ClsTurnsEveryPixelOff : Prop :=
  ∀ s : State, ∃ t, exec .cls s = .next t ∧ (∀ px py, t.pixelOn px py = false) ∧
    t.outputs = s.outputs ++ [.fbClear] ∧ s.unchangedBut t [.fb, .outputs]

/-- DRW on a grid that holds a sprite without overlap: a pixel flips exactly when a set sprite bit names
it after the wrap, bit 7 leftmost, and VF is 1 exactly when some set bit names a pixel that was on
(R252). -/
def Obligations.DrawFlipsTheSpritePixels : Prop :=
  ∀ (x y : RegIdx) (n : Nibble) (s : State), Framebuffer.wf s.cfg s.fb →
    8 ≤ s.cfg.fbWidth → n.toNat ≤ s.cfg.fbHeight → 0 < s.cfg.fbHeight →
    ∃ t, exec (.drw x y n) s = .next t ∧
      (∀ px py, t.pixelOn px py ≠ s.pixelOn px py ↔
        ∃ r < n.toNat, ∃ c < 8, (s.memRead (s.I.toNat + r)).getLsbD (7 - c) = true ∧
          ((s.readV x).toNat + c) % s.cfg.fbWidth = px % s.cfg.fbWidth ∧
          ((s.readV y).toNat + r) % s.cfg.fbHeight = py % s.cfg.fbHeight) ∧
      ((t.readV vF).toNat = 1 ↔
        ∃ r < n.toNat, ∃ c < 8, (s.memRead (s.I.toNat + r)).getLsbD (7 - c) = true ∧
          s.pixelOn ((s.readV x).toNat + c) ((s.readV y).toNat + r) = true) ∧
      (t.readV vF).toNat ≤ 1 ∧
      s.unchangedBut t [.v vF, .fb, .outputs]

/-- DRW on any grid: the set sprite bits toggle their pixels one after another, row by row and left to
right, each call on the port in that order; VF is 1 exactly when some toggle met a pixel that was on at
that moment (R252, R42). -/
def Obligations.DrawTogglesInOrderOnAnyGrid : Prop :=
  ∀ (x y : RegIdx) (n : Nibble) (s : State), Framebuffer.wf s.cfg s.fb →
    0 < s.cfg.fbWidth → 0 < s.cfg.fbHeight →
    ∃ (t : State) (calls : List (Nat × Nat)), exec (.drw x y n) s = .next t ∧
      (∀ p, p ∈ calls ↔ ∃ r < n.toNat, ∃ c < 8,
        (s.memRead (s.I.toNat + r)).getLsbD (7 - c) = true ∧
        p = ((s.readV x).toNat + c, (s.readV y).toNat + r)) ∧
      calls.Pairwise (fun p q => p.2 < q.2 ∨ p.2 = q.2 ∧ p.1 < q.1) ∧
      t.outputs = s.outputs ++ calls.map (fun p => .fbTogglePixel p.1 p.2) ∧
      (∀ px py, t.pixelOn px py = (s.pixelOn px py != decide ((calls.countP fun p =>
        p.1 % s.cfg.fbWidth = px % s.cfg.fbWidth ∧
        p.2 % s.cfg.fbHeight = py % s.cfg.fbHeight) % 2 = 1))) ∧
      ((t.readV vF).toNat = 1 ↔ ∃ before p after, calls = before ++ p :: after ∧
        (s.pixelOn p.1 p.2 != decide ((before.countP fun q =>
          q.1 % s.cfg.fbWidth = p.1 % s.cfg.fbWidth ∧
          q.2 % s.cfg.fbHeight = p.2 % s.cfg.fbHeight) % 2 = 1)) = true) ∧
      (t.readV vF).toNat ≤ 1 ∧ s.unchangedBut t [.v vF, .fb, .outputs]

/-- Drawing the same sprite twice restores the grid; on a grid that holds the sprite without overlap, VF
after the second draw is 1 exactly when some targeted pixel was off before the first (R259). -/
def Obligations.DrawTwiceRestoresTheGrid : Prop :=
  ∀ (x y : RegIdx) (n : Nibble) (s t u : State), Framebuffer.wf s.cfg s.fb →
    0 < s.cfg.fbWidth → 0 < s.cfg.fbHeight → exec (.drw x y n) s = .next t →
    u.cfg = s.cfg → u.fb = t.fb → u.I = s.I → u.readV x = s.readV x → u.readV y = s.readV y →
    (∀ r < n.toNat, u.memRead (s.I.toNat + r) = s.memRead (s.I.toNat + r)) →
    ∃ w, exec (.drw x y n) u = .next w ∧ w.fb = s.fb ∧
      (8 ≤ s.cfg.fbWidth → n.toNat ≤ s.cfg.fbHeight →
        ((w.readV vF).toNat = 1 ↔ ∃ r < n.toNat, ∃ c < 8,
          (s.memRead (s.I.toNat + r)).getLsbD (7 - c) = true ∧
          s.pixelOn ((s.readV x).toNat + c) ((s.readV y).toNat + r) = false))

/-- The key skips, by the key that V[x] names; a value over 15 names no key and counts as not pressed
(R253, R254, R160). -/
def Obligations.KeySkipsAdvanceByFourOrTwo : Prop :=
  ∀ (x : RegIdx) (s : State) (a : Word), s.PC = a + 2 →
    ∃ t u, exec (.skp x) s = .next t ∧ exec (.sknp x) s = .next u ∧
      s.unchangedBut t [.pc] ∧ s.unchangedBut u [.pc] ∧
      (∀ h : (s.readV x).toNat < 16,
        t.PC = (if s.keys[(s.readV x).toNat] then a + 4 else a + 2) ∧
        u.PC = (if s.keys[(s.readV x).toNat] then a + 2 else a + 4)) ∧
      (16 ≤ (s.readV x).toNat → t.PC = a + 2 ∧ u.PC = a + 4)

/-- Fx07, Fx15 and Fx18 move the timers (R255, R257, R258). -/
def Obligations.TimerReadsAndWrites : Prop :=
  ∀ (x : RegIdx) (s : State),
    (∃ t, exec (.ldVxDt x) s = .next t ∧ t.readV x = s.DT ∧ s.unchangedBut t [.v x]) ∧
    (∃ t, exec (.ldDtVx x) s = .next t ∧ t.DT = s.readV x ∧ s.unchangedBut t [.dt]) ∧
    (∃ t, exec (.ldStVx x) s = .next t ∧ t.ST = s.readV x ∧ s.unchangedBut t [.st])

end
end

