-- ==== Sys2Proof/Laws/Codec.lean ====
section
/-! SUPPORT. Words and their fields as numbers (30_encoding R91, R92): with these, every fact about the
codec is linear arithmetic. -/

namespace Sys2Proof

theorem append_toNat {m n : Nat} (a : BitVec m) (b : BitVec n) :
    (a ++ b).toNat = a.toNat * 2 ^ n + b.toNat := by
  rw [BitVec.toNat_append, ← Nat.shiftLeft_add_eq_or_of_lt b.isLt, Nat.shiftLeft_eq]

/-! ## The encoding formats -/

theorem encNNN_toNat (t : Nibble) (nnn : Addr) :
    (encNNN t nnn).toNat = t.toNat * 4096 + nnn.toNat := append_toNat t nnn

theorem encXKK_toNat (t : Nibble) (x : RegIdx) (kk : Byte) :
    (encXKK t x kk).toNat = t.toNat * 4096 + x.val * 256 + kk.toNat := by
  have h1 := append_toNat (t ++ BitVec.ofFin (w := 4) x) kk
  have h2 := append_toNat t (BitVec.ofFin (w := 4) x)
  have h3 : (BitVec.ofFin (w := 4) x).toNat = x.val := rfl
  have h4 : (encXKK t x kk).toNat = (t ++ BitVec.ofFin (w := 4) x ++ kk).toNat := rfl
  omega

theorem encXYN_toNat (t : Nibble) (x y : RegIdx) (n : Nibble) :
    (encXYN t x y n).toNat = t.toNat * 4096 + x.val * 256 + y.val * 16 + n.toNat := by
  have h1 := append_toNat (t ++ BitVec.ofFin (w := 4) x) (BitVec.ofFin (w := 4) y ++ n)
  have h2 := append_toNat t (BitVec.ofFin (w := 4) x)
  have h3 := append_toNat (BitVec.ofFin (w := 4) y) n
  have h4 : (BitVec.ofFin (w := 4) x).toNat = x.val := rfl
  have h5 : (BitVec.ofFin (w := 4) y).toNat = y.val := rfl
  have h6 : (encXYN t x y n).toNat =
    (t ++ BitVec.ofFin (w := 4) x ++ (BitVec.ofFin (w := 4) y ++ n)).toNat := rfl
  omega

/-! ## The fields of a word -/

theorem fieldT_toNat (op : Word) : (fieldT op).toNat = op.toNat / 4096 := by
  have h : op.toNat / 4096 < 2 ^ 4 := by have := op.isLt; omega
  simp only [fieldT, BitVec.extractLsb'_toNat, Nat.shiftRight_eq_div_pow]
  omega

theorem fieldX_val (op : Word) : (fieldX op).val = op.toNat / 256 % 16 := by
  show (op.extractLsb' 8 4).toNat = _
  simp only [BitVec.extractLsb'_toNat, Nat.shiftRight_eq_div_pow]

theorem fieldY_val (op : Word) : (fieldY op).val = op.toNat / 16 % 16 := by
  show (op.extractLsb' 4 4).toNat = _
  simp only [BitVec.extractLsb'_toNat, Nat.shiftRight_eq_div_pow]

theorem fieldN_toNat (op : Word) : (fieldN op).toNat = op.toNat % 16 := by
  simp [fieldN, BitVec.extractLsb'_toNat]

theorem fieldKk_toNat (op : Word) : (fieldKk op).toNat = op.toNat % 256 := by
  simp [fieldKk, BitVec.extractLsb'_toNat]

theorem fieldNnn_toNat (op : Word) : (fieldNnn op).toNat = op.toNat % 4096 := by
  simp [fieldNnn, BitVec.extractLsb'_toNat]

/-! ## Words and their two bytes -/

theorem wordOfBytes_toNat (hi lo : Byte) :
    (wordOfBytes hi lo).toNat = hi.toNat * 256 + lo.toNat := append_toNat hi lo

theorem highByte_toNat (op : Word) : (highByte op).toNat = op.toNat / 256 := by
  have h : op.toNat / 256 < 2 ^ 8 := by have := op.isLt; omega
  simp only [highByte, BitVec.extractLsb'_toNat, Nat.shiftRight_eq_div_pow]
  omega

theorem lowByte_toNat (op : Word) : (lowByte op).toNat = op.toNat % 256 := by
  simp [lowByte, BitVec.extractLsb'_toNat]

@[simp] theorem wordOfBytes_bytes (op : Word) : wordOfBytes (highByte op) (lowByte op) = op :=
  BitVec.eq_of_toNat_eq (by
    rw [wordOfBytes_toNat, highByte_toNat, lowByte_toNat]; omega)

@[simp] theorem highByte_wordOfBytes (hi lo : Byte) : highByte (wordOfBytes hi lo) = hi :=
  BitVec.eq_of_toNat_eq (by
    rw [highByte_toNat, wordOfBytes_toNat]; have := lo.isLt; omega)

@[simp] theorem lowByte_wordOfBytes (hi lo : Byte) : lowByte (wordOfBytes hi lo) = lo :=
  BitVec.eq_of_toNat_eq (by
    rw [lowByte_toNat, wordOfBytes_toNat]; have := lo.isLt; omega)

/-! ## The fields of an encoded word -/

variable (t : Nibble) (x y : RegIdx) (n : Nibble) (kk : Byte) (nnn : Addr)

@[simp] theorem fieldT_encNNN : fieldT (encNNN t nnn) = t :=
  BitVec.eq_of_toNat_eq (by rw [fieldT_toNat, encNNN_toNat]; have := nnn.isLt; omega)

@[simp] theorem fieldNnn_encNNN : fieldNnn (encNNN t nnn) = nnn :=
  BitVec.eq_of_toNat_eq (by rw [fieldNnn_toNat, encNNN_toNat]; have := nnn.isLt; omega)

@[simp] theorem fieldT_encXKK : fieldT (encXKK t x kk) = t :=
  BitVec.eq_of_toNat_eq (by
    rw [fieldT_toNat, encXKK_toNat]; have := kk.isLt; have := x.isLt; omega)

@[simp] theorem fieldX_encXKK : fieldX (encXKK t x kk) = x :=
  Fin.ext (by rw [fieldX_val, encXKK_toNat]; have := kk.isLt; have := x.isLt; omega)

@[simp] theorem fieldKk_encXKK : fieldKk (encXKK t x kk) = kk :=
  BitVec.eq_of_toNat_eq (by rw [fieldKk_toNat, encXKK_toNat]; have := kk.isLt; omega)

@[simp] theorem fieldT_encXYN : fieldT (encXYN t x y n) = t :=
  BitVec.eq_of_toNat_eq (by
    rw [fieldT_toNat, encXYN_toNat]
    have := n.isLt; have := x.isLt; have := y.isLt; omega)

@[simp] theorem fieldX_encXYN : fieldX (encXYN t x y n) = x :=
  Fin.ext (by
    rw [fieldX_val, encXYN_toNat]; have := n.isLt; have := x.isLt; have := y.isLt; omega)

@[simp] theorem fieldY_encXYN : fieldY (encXYN t x y n) = y :=
  Fin.ext (by rw [fieldY_val, encXYN_toNat]; have := n.isLt; have := y.isLt; omega)

@[simp] theorem fieldN_encXYN : fieldN (encXYN t x y n) = n :=
  BitVec.eq_of_toNat_eq (by rw [fieldN_toNat, encXYN_toNat]; have := n.isLt; omega)

/-! ## A word rebuilt from its fields -/

theorem encNNN_fields (op : Word) (h : fieldT op = t) : encNNN t (fieldNnn op) = op :=
  BitVec.eq_of_toNat_eq (by
    rw [encNNN_toNat, fieldNnn_toNat, ← h, fieldT_toNat]; omega)

theorem encXKK_fields (op : Word) (h : fieldT op = t) (hk : fieldKk op = kk) :
    encXKK t (fieldX op) kk = op :=
  BitVec.eq_of_toNat_eq (by
    rw [encXKK_toNat, ← hk, fieldKk_toNat, fieldX_val, ← h, fieldT_toNat]; omega)

theorem encXYN_fields (op : Word) (h : fieldT op = t) (hn : fieldN op = n) :
    encXYN t (fieldX op) (fieldY op) n = op :=
  BitVec.eq_of_toNat_eq (by
    rw [encXYN_toNat, ← hn, fieldN_toNat, fieldX_val, fieldY_val, ← h, fieldT_toNat]; omega)

theorem word_of_nibbles (op : Word) :
    encXYN (fieldT op) (fieldX op) (fieldY op) (fieldN op) = op := encXYN_fields _ _ op rfl rfl

/-! ## The masks of the decode table (R96) -/

theorem append_and {v w : Nat} (a c : BitVec v) (b d : BitVec w) :
    (a ++ b) &&& (c ++ d) = (a &&& c) ++ (b &&& d) := by
  apply BitVec.eq_of_getLsbD_eq
  intro i _
  simp only [BitVec.getLsbD_and, BitVec.getLsbD_append]
  split <;> simp

/-- Masking nibble by nibble. -/
theorem encXYN_and (u : Nibble) (x' y' : RegIdx) (m : Nibble) :
    encXYN t x y n &&& encXYN u x' y' m =
      encXYN (t &&& u) (BitVec.ofFin (w := 4) x &&& BitVec.ofFin (w := 4) x').toFin
        (BitVec.ofFin (w := 4) y &&& BitVec.ofFin (w := 4) y').toFin (n &&& m) := by
  have h1 := append_and (t ++ BitVec.ofFin (w := 4) x) (u ++ BitVec.ofFin (w := 4) x')
    (BitVec.ofFin (w := 4) y ++ n) (BitVec.ofFin (w := 4) y' ++ m)
  rw [append_and t u, append_and (BitVec.ofFin (w := 4) y)] at h1
  exact h1

theorem nibble_and_ones : ∀ a : Nibble, a &&& 0xF = a := by decide

theorem nibble_and_zero : ∀ a : Nibble, a &&& 0x0 = 0 := by decide

theorem regIdx_and_ones : ∀ x : RegIdx,
    (BitVec.ofFin (w := 4) x &&& BitVec.ofFin (w := 4) (15 : RegIdx)).toFin = x := by decide

theorem regIdx_and_zero : ∀ x : RegIdx,
    (BitVec.ofFin (w := 4) x &&& BitVec.ofFin (w := 4) (0 : RegIdx)).toFin = (0 : RegIdx) := by
  decide

/-- Mask 0xF000 keeps the family. -/
theorem mask_F000 (op : Word) : op &&& 0xF000 = encXYN (fieldT op) 0 0 0 := by
  have h : (0xF000 : Word) = encXYN 0xF 0 0 0x0 := by decide
  conv_lhs => rw [← word_of_nibbles op, h]
  rw [encXYN_and, nibble_and_ones, nibble_and_zero, regIdx_and_zero, regIdx_and_zero]

/-- Mask 0xF00F keeps the family and the low nibble. -/
theorem mask_F00F (op : Word) : op &&& 0xF00F = encXYN (fieldT op) 0 0 (fieldN op) := by
  have h : (0xF00F : Word) = encXYN 0xF 0 0 0xF := by decide
  conv_lhs => rw [← word_of_nibbles op, h]
  rw [encXYN_and, nibble_and_ones, nibble_and_ones, regIdx_and_zero, regIdx_and_zero]

/-- Mask 0xF0FF keeps the family and the low byte. -/
theorem mask_F0FF (op : Word) : op &&& 0xF0FF = encXYN (fieldT op) 0 (fieldY op) (fieldN op) := by
  have h : (0xF0FF : Word) = encXYN 0xF 0 15 0xF := by decide
  conv_lhs => rw [← word_of_nibbles op, h]
  rw [encXYN_and, nibble_and_ones, nibble_and_ones, regIdx_and_zero, regIdx_and_ones]

theorem mask_FFFF (op : Word) : op &&& 0xFFFF = op := by
  have h : (0xFFFF : Word) = BitVec.allOnes 16 := by decide
  rw [h, BitVec.and_allOnes]

/-- Words with equal nibbles. -/
theorem encXYN_inj {t t' : Nibble} {x x' y y' : RegIdx} {n n' : Nibble} :
    encXYN t x y n = encXYN t' x' y' n' ↔ t = t' ∧ x = x' ∧ y = y' ∧ n = n' := by
  constructor
  · intro h
    refine ⟨?_, ?_, ?_, ?_⟩
    · simpa using congrArg fieldT h
    · simpa using congrArg fieldX h
    · simpa using congrArg fieldY h
    · simpa using congrArg fieldN h
  · rintro ⟨rfl, rfl, rfl, rfl⟩
    rfl

/-- The low byte is the two low nibbles. -/
theorem fieldKk_eq_iff (op : Word) (kk : Byte) :
    fieldKk op = kk ↔ (fieldY op).val = kk.toNat / 16 ∧ (fieldN op).toNat = kk.toNat % 16 := by
  rw [← BitVec.toNat_inj, fieldKk_toNat, fieldY_val, fieldN_toNat]
  have := kk.isLt
  omega

end Sys2Proof
end

