-- ==== Sys2Proof/Laws/State.lean ====
section
/-! SUPPORT. One lemma per field per state operation of Machine/Ops.lean: what each operation makes of
each field of State, so that no proof unfolds an operation. -/

namespace Sys2Proof.Machine

/-- Memory reads see only `mem` and `cfg`. -/
theorem memRead_congr {s t : State} (hm : t.mem = s.mem) (hc : t.cfg = s.cfg) (a : Nat) :
    t.memRead a = s.memRead a := by simp [State.memRead, hm, hc]

/-- Register reads see only `V`. -/
theorem readV_congr {s t : State} (h : t.V = s.V) (x : RegIdx) : t.readV x = s.readV x := by
  simp [State.readV, h]

/-- Pixel reads see only `fb` and `cfg`. -/
theorem pixelOn_congr {s t : State} (hf : t.fb = s.fb) (hc : t.cfg = s.cfg) (px py : Nat) :
    t.pixelOn px py = s.pixelOn px py := by
  unfold State.pixelOn
  rw [hf, hc]

variable (s : State)


@[simp] theorem writeV_mem (x : RegIdx) (b : Byte) : (s.writeV x b).mem = s.mem := rfl
@[simp] theorem writeV_V (x : RegIdx) (b : Byte) : (s.writeV x b).V = s.V.set x.val b := rfl
@[simp] theorem writeV_I (x : RegIdx) (b : Byte) : (s.writeV x b).I = s.I := rfl
@[simp] theorem writeV_PC (x : RegIdx) (b : Byte) : (s.writeV x b).PC = s.PC := rfl
@[simp] theorem writeV_stack (x : RegIdx) (b : Byte) : (s.writeV x b).stack = s.stack := rfl
@[simp] theorem writeV_DT (x : RegIdx) (b : Byte) : (s.writeV x b).DT = s.DT := rfl
@[simp] theorem writeV_ST (x : RegIdx) (b : Byte) : (s.writeV x b).ST = s.ST := rfl
@[simp] theorem writeV_run (x : RegIdx) (b : Byte) : (s.writeV x b).run = s.run := rfl
@[simp] theorem writeV_waitReg (x : RegIdx) (b : Byte) : (s.writeV x b).waitReg = s.waitReg := rfl
@[simp] theorem writeV_fault (x : RegIdx) (b : Byte) : (s.writeV x b).fault = s.fault := rfl
@[simp] theorem writeV_fb (x : RegIdx) (b : Byte) : (s.writeV x b).fb = s.fb := rfl
@[simp] theorem writeV_keys (x : RegIdx) (b : Byte) : (s.writeV x b).keys = s.keys := rfl
@[simp] theorem writeV_tone (x : RegIdx) (b : Byte) : (s.writeV x b).tone = s.tone := rfl
@[simp] theorem writeV_ctl (x : RegIdx) (b : Byte) : (s.writeV x b).ctl = s.ctl := rfl
@[simp] theorem writeV_inputs (x : RegIdx) (b : Byte) : (s.writeV x b).inputs = s.inputs := rfl
@[simp] theorem writeV_draws (x : RegIdx) (b : Byte) : (s.writeV x b).draws = s.draws := rfl
@[simp] theorem writeV_drawCount (x : RegIdx) (b : Byte) :
    (s.writeV x b).drawCount = s.drawCount := rfl
@[simp] theorem writeV_creations (x : RegIdx) (b : Byte) :
    (s.writeV x b).creations = s.creations := rfl
@[simp] theorem writeV_outputs (x : RegIdx) (b : Byte) : (s.writeV x b).outputs = s.outputs := rfl
@[simp] theorem writeV_written (x : RegIdx) (b : Byte) : (s.writeV x b).written = s.written := rfl
@[simp] theorem writeV_cfg (x : RegIdx) (b : Byte) : (s.writeV x b).cfg = s.cfg := rfl


@[simp] theorem memWrite_mem (a : Nat) (b : Byte) :
    (s.memWrite a b).mem = Memory.set s.cfg.font s.mem (a % 4096) b := rfl
@[simp] theorem memWrite_V (a : Nat) (b : Byte) : (s.memWrite a b).V = s.V := rfl
@[simp] theorem memWrite_I (a : Nat) (b : Byte) : (s.memWrite a b).I = s.I := rfl
@[simp] theorem memWrite_PC (a : Nat) (b : Byte) : (s.memWrite a b).PC = s.PC := rfl
@[simp] theorem memWrite_stack (a : Nat) (b : Byte) : (s.memWrite a b).stack = s.stack := rfl
@[simp] theorem memWrite_DT (a : Nat) (b : Byte) : (s.memWrite a b).DT = s.DT := rfl
@[simp] theorem memWrite_ST (a : Nat) (b : Byte) : (s.memWrite a b).ST = s.ST := rfl
@[simp] theorem memWrite_run (a : Nat) (b : Byte) : (s.memWrite a b).run = s.run := rfl
@[simp] theorem memWrite_waitReg (a : Nat) (b : Byte) : (s.memWrite a b).waitReg = s.waitReg := rfl
@[simp] theorem memWrite_fault (a : Nat) (b : Byte) : (s.memWrite a b).fault = s.fault := rfl
@[simp] theorem memWrite_fb (a : Nat) (b : Byte) : (s.memWrite a b).fb = s.fb := rfl
@[simp] theorem memWrite_keys (a : Nat) (b : Byte) : (s.memWrite a b).keys = s.keys := rfl
@[simp] theorem memWrite_tone (a : Nat) (b : Byte) : (s.memWrite a b).tone = s.tone := rfl
@[simp] theorem memWrite_ctl (a : Nat) (b : Byte) : (s.memWrite a b).ctl = s.ctl := rfl
@[simp] theorem memWrite_inputs (a : Nat) (b : Byte) : (s.memWrite a b).inputs = s.inputs := rfl
@[simp] theorem memWrite_draws (a : Nat) (b : Byte) : (s.memWrite a b).draws = s.draws := rfl
@[simp] theorem memWrite_drawCount (a : Nat) (b : Byte) :
    (s.memWrite a b).drawCount = s.drawCount := rfl
@[simp] theorem memWrite_creations (a : Nat) (b : Byte) :
    (s.memWrite a b).creations = s.creations := rfl
@[simp] theorem memWrite_outputs (a : Nat) (b : Byte) : (s.memWrite a b).outputs = s.outputs := rfl
@[simp] theorem memWrite_written (a : Nat) (b : Byte) : (s.memWrite a b).written = s.written := rfl
@[simp] theorem memWrite_cfg (a : Nat) (b : Byte) : (s.memWrite a b).cfg = s.cfg := rfl


@[simp] theorem push_mem (v : Word) : (s.push v).mem = s.mem := rfl
@[simp] theorem push_V (v : Word) : (s.push v).V = s.V := rfl
@[simp] theorem push_I (v : Word) : (s.push v).I = s.I := rfl
@[simp] theorem push_PC (v : Word) : (s.push v).PC = s.PC := rfl
@[simp] theorem push_stack (v : Word) : (s.push v).stack = s.stack ++ [v] := rfl
@[simp] theorem push_DT (v : Word) : (s.push v).DT = s.DT := rfl
@[simp] theorem push_ST (v : Word) : (s.push v).ST = s.ST := rfl
@[simp] theorem push_run (v : Word) : (s.push v).run = s.run := rfl
@[simp] theorem push_waitReg (v : Word) : (s.push v).waitReg = s.waitReg := rfl
@[simp] theorem push_fault (v : Word) : (s.push v).fault = s.fault := rfl
@[simp] theorem push_fb (v : Word) : (s.push v).fb = s.fb := rfl
@[simp] theorem push_keys (v : Word) : (s.push v).keys = s.keys := rfl
@[simp] theorem push_tone (v : Word) : (s.push v).tone = s.tone := rfl
@[simp] theorem push_ctl (v : Word) : (s.push v).ctl = s.ctl := rfl
@[simp] theorem push_inputs (v : Word) : (s.push v).inputs = s.inputs := rfl
@[simp] theorem push_draws (v : Word) : (s.push v).draws = s.draws := rfl
@[simp] theorem push_drawCount (v : Word) : (s.push v).drawCount = s.drawCount := rfl
@[simp] theorem push_creations (v : Word) : (s.push v).creations = s.creations := rfl
@[simp] theorem push_outputs (v : Word) : (s.push v).outputs = s.outputs := rfl
@[simp] theorem push_written (v : Word) : (s.push v).written = s.written := rfl
@[simp] theorem push_cfg (v : Word) : (s.push v).cfg = s.cfg := rfl


@[simp] theorem emit_mem (o : Output) : (s.emit o).mem = s.mem := rfl
@[simp] theorem emit_V (o : Output) : (s.emit o).V = s.V := rfl
@[simp] theorem emit_I (o : Output) : (s.emit o).I = s.I := rfl
@[simp] theorem emit_PC (o : Output) : (s.emit o).PC = s.PC := rfl
@[simp] theorem emit_stack (o : Output) : (s.emit o).stack = s.stack := rfl
@[simp] theorem emit_DT (o : Output) : (s.emit o).DT = s.DT := rfl
@[simp] theorem emit_ST (o : Output) : (s.emit o).ST = s.ST := rfl
@[simp] theorem emit_run (o : Output) : (s.emit o).run = s.run := rfl
@[simp] theorem emit_waitReg (o : Output) : (s.emit o).waitReg = s.waitReg := rfl
@[simp] theorem emit_fault (o : Output) : (s.emit o).fault = s.fault := rfl
@[simp] theorem emit_fb (o : Output) : (s.emit o).fb = s.fb := rfl
@[simp] theorem emit_keys (o : Output) : (s.emit o).keys = s.keys := rfl
@[simp] theorem emit_tone (o : Output) : (s.emit o).tone = s.tone := rfl
@[simp] theorem emit_ctl (o : Output) : (s.emit o).ctl = s.ctl := rfl
@[simp] theorem emit_inputs (o : Output) : (s.emit o).inputs = s.inputs := rfl
@[simp] theorem emit_draws (o : Output) : (s.emit o).draws = s.draws := rfl
@[simp] theorem emit_drawCount (o : Output) : (s.emit o).drawCount = s.drawCount := rfl
@[simp] theorem emit_creations (o : Output) : (s.emit o).creations = s.creations := rfl
@[simp] theorem emit_outputs (o : Output) : (s.emit o).outputs = s.outputs ++ [o] := rfl
@[simp] theorem emit_written (o : Output) : (s.emit o).written = s.written := rfl
@[simp] theorem emit_cfg (o : Output) : (s.emit o).cfg = s.cfg := rfl


@[simp] theorem raiseFault_mem (c : FaultCause) (op a : Word) :
    (s.raiseFault c op a).mem = s.mem := rfl
@[simp] theorem raiseFault_V (c : FaultCause) (op a : Word) : (s.raiseFault c op a).V = s.V := rfl
@[simp] theorem raiseFault_I (c : FaultCause) (op a : Word) : (s.raiseFault c op a).I = s.I := rfl
@[simp] theorem raiseFault_PC (c : FaultCause) (op a : Word) :
    (s.raiseFault c op a).PC = s.PC := rfl
@[simp] theorem raiseFault_stack (c : FaultCause) (op a : Word) :
    (s.raiseFault c op a).stack = s.stack := rfl
@[simp] theorem raiseFault_DT (c : FaultCause) (op a : Word) :
    (s.raiseFault c op a).DT = s.DT := rfl
@[simp] theorem raiseFault_ST (c : FaultCause) (op a : Word) :
    (s.raiseFault c op a).ST = s.ST := rfl
@[simp] theorem raiseFault_run (c : FaultCause) (op a : Word) :
    (s.raiseFault c op a).run = .halted := rfl
@[simp] theorem raiseFault_waitReg (c : FaultCause) (op a : Word) :
    (s.raiseFault c op a).waitReg = s.waitReg := rfl
@[simp] theorem raiseFault_fault (c : FaultCause) (op a : Word) :
    (s.raiseFault c op a).fault = some ⟨c, op, a⟩ := rfl
@[simp] theorem raiseFault_fb (c : FaultCause) (op a : Word) :
    (s.raiseFault c op a).fb = s.fb := rfl
@[simp] theorem raiseFault_keys (c : FaultCause) (op a : Word) :
    (s.raiseFault c op a).keys = s.keys := rfl
@[simp] theorem raiseFault_tone (c : FaultCause) (op a : Word) :
    (s.raiseFault c op a).tone = s.tone := rfl
@[simp] theorem raiseFault_ctl (c : FaultCause) (op a : Word) :
    (s.raiseFault c op a).ctl = .idle := rfl
@[simp] theorem raiseFault_inputs (c : FaultCause) (op a : Word) :
    (s.raiseFault c op a).inputs = s.inputs := rfl
@[simp] theorem raiseFault_draws (c : FaultCause) (op a : Word) :
    (s.raiseFault c op a).draws = s.draws := rfl
@[simp] theorem raiseFault_drawCount (c : FaultCause) (op a : Word) :
    (s.raiseFault c op a).drawCount = s.drawCount := rfl
@[simp] theorem raiseFault_creations (c : FaultCause) (op a : Word) :
    (s.raiseFault c op a).creations = s.creations := rfl
@[simp] theorem raiseFault_outputs (c : FaultCause) (op a : Word) :
    (s.raiseFault c op a).outputs = s.outputs ++ [.faultReport ⟨c, op, a⟩] := rfl
@[simp] theorem raiseFault_written (c : FaultCause) (op a : Word) :
    (s.raiseFault c op a).written = s.written := rfl
@[simp] theorem raiseFault_cfg (c : FaultCause) (op a : Word) :
    (s.raiseFault c op a).cfg = s.cfg := rfl


@[simp] theorem clearFb_mem : s.clearFb.mem = s.mem := rfl
@[simp] theorem clearFb_V : s.clearFb.V = s.V := rfl
@[simp] theorem clearFb_I : s.clearFb.I = s.I := rfl
@[simp] theorem clearFb_PC : s.clearFb.PC = s.PC := rfl
@[simp] theorem clearFb_stack : s.clearFb.stack = s.stack := rfl
@[simp] theorem clearFb_DT : s.clearFb.DT = s.DT := rfl
@[simp] theorem clearFb_ST : s.clearFb.ST = s.ST := rfl
@[simp] theorem clearFb_run : s.clearFb.run = s.run := rfl
@[simp] theorem clearFb_waitReg : s.clearFb.waitReg = s.waitReg := rfl
@[simp] theorem clearFb_fault : s.clearFb.fault = s.fault := rfl
@[simp] theorem clearFb_fb : s.clearFb.fb = [] := rfl
@[simp] theorem clearFb_keys : s.clearFb.keys = s.keys := rfl
@[simp] theorem clearFb_tone : s.clearFb.tone = s.tone := rfl
@[simp] theorem clearFb_ctl : s.clearFb.ctl = s.ctl := rfl
@[simp] theorem clearFb_inputs : s.clearFb.inputs = s.inputs := rfl
@[simp] theorem clearFb_draws : s.clearFb.draws = s.draws := rfl
@[simp] theorem clearFb_drawCount : s.clearFb.drawCount = s.drawCount := rfl
@[simp] theorem clearFb_creations : s.clearFb.creations = s.creations := rfl
@[simp] theorem clearFb_outputs : s.clearFb.outputs = s.outputs ++ [.fbClear] := rfl
@[simp] theorem clearFb_written : s.clearFb.written = s.written := rfl
@[simp] theorem clearFb_cfg : s.clearFb.cfg = s.cfg := rfl


@[simp] theorem togglePixel_mem (px py : Nat) : (s.togglePixel px py).mem = s.mem := rfl
@[simp] theorem togglePixel_V (px py : Nat) : (s.togglePixel px py).V = s.V := rfl
@[simp] theorem togglePixel_I (px py : Nat) : (s.togglePixel px py).I = s.I := rfl
@[simp] theorem togglePixel_PC (px py : Nat) : (s.togglePixel px py).PC = s.PC := rfl
@[simp] theorem togglePixel_stack (px py : Nat) : (s.togglePixel px py).stack = s.stack := rfl
@[simp] theorem togglePixel_DT (px py : Nat) : (s.togglePixel px py).DT = s.DT := rfl
@[simp] theorem togglePixel_ST (px py : Nat) : (s.togglePixel px py).ST = s.ST := rfl
@[simp] theorem togglePixel_run (px py : Nat) : (s.togglePixel px py).run = s.run := rfl
@[simp] theorem togglePixel_waitReg (px py : Nat) : (s.togglePixel px py).waitReg = s.waitReg := rfl
@[simp] theorem togglePixel_fault (px py : Nat) : (s.togglePixel px py).fault = s.fault := rfl
@[simp] theorem togglePixel_fb (px py : Nat) :
    (s.togglePixel px py).fb = Framebuffer.toggle s.fb (pixelKey s.cfg px py) := rfl
@[simp] theorem togglePixel_keys (px py : Nat) : (s.togglePixel px py).keys = s.keys := rfl
@[simp] theorem togglePixel_tone (px py : Nat) : (s.togglePixel px py).tone = s.tone := rfl
@[simp] theorem togglePixel_ctl (px py : Nat) : (s.togglePixel px py).ctl = s.ctl := rfl
@[simp] theorem togglePixel_inputs (px py : Nat) : (s.togglePixel px py).inputs = s.inputs := rfl
@[simp] theorem togglePixel_draws (px py : Nat) : (s.togglePixel px py).draws = s.draws := rfl
@[simp] theorem togglePixel_drawCount (px py : Nat) :
    (s.togglePixel px py).drawCount = s.drawCount := rfl
@[simp] theorem togglePixel_creations (px py : Nat) :
    (s.togglePixel px py).creations = s.creations := rfl
@[simp] theorem togglePixel_outputs (px py : Nat) :
    (s.togglePixel px py).outputs = s.outputs ++ [.fbTogglePixel px py] := rfl
@[simp] theorem togglePixel_written (px py : Nat) : (s.togglePixel px py).written = s.written := rfl
@[simp] theorem togglePixel_cfg (px py : Nat) : (s.togglePixel px py).cfg = s.cfg := rfl


@[simp] theorem present_mem : s.present.mem = s.mem := rfl
@[simp] theorem present_V : s.present.V = s.V := rfl
@[simp] theorem present_I : s.present.I = s.I := rfl
@[simp] theorem present_PC : s.present.PC = s.PC := rfl
@[simp] theorem present_stack : s.present.stack = s.stack := rfl
@[simp] theorem present_DT : s.present.DT = s.DT := rfl
@[simp] theorem present_ST : s.present.ST = s.ST := rfl
@[simp] theorem present_run : s.present.run = s.run := rfl
@[simp] theorem present_waitReg : s.present.waitReg = s.waitReg := rfl
@[simp] theorem present_fault : s.present.fault = s.fault := rfl
@[simp] theorem present_fb : s.present.fb = s.fb := rfl
@[simp] theorem present_keys : s.present.keys = s.keys := rfl
@[simp] theorem present_tone : s.present.tone = s.tone := rfl
@[simp] theorem present_ctl : s.present.ctl = s.ctl := rfl
@[simp] theorem present_inputs : s.present.inputs = s.inputs := rfl
@[simp] theorem present_draws : s.present.draws = s.draws := rfl
@[simp] theorem present_drawCount : s.present.drawCount = s.drawCount := rfl
@[simp] theorem present_creations : s.present.creations = s.creations := rfl
@[simp] theorem present_outputs : s.present.outputs = s.outputs ++ [.fbPresent s.fb] := rfl
@[simp] theorem present_written : s.present.written = s.written := rfl
@[simp] theorem present_cfg : s.present.cfg = s.cfg := rfl


@[simp] theorem toneStart_mem : s.toneStart.mem = s.mem := rfl
@[simp] theorem toneStart_V : s.toneStart.V = s.V := rfl
@[simp] theorem toneStart_I : s.toneStart.I = s.I := rfl
@[simp] theorem toneStart_PC : s.toneStart.PC = s.PC := rfl
@[simp] theorem toneStart_stack : s.toneStart.stack = s.stack := rfl
@[simp] theorem toneStart_DT : s.toneStart.DT = s.DT := rfl
@[simp] theorem toneStart_ST : s.toneStart.ST = s.ST := rfl
@[simp] theorem toneStart_run : s.toneStart.run = s.run := rfl
@[simp] theorem toneStart_waitReg : s.toneStart.waitReg = s.waitReg := rfl
@[simp] theorem toneStart_fault : s.toneStart.fault = s.fault := rfl
@[simp] theorem toneStart_fb : s.toneStart.fb = s.fb := rfl
@[simp] theorem toneStart_keys : s.toneStart.keys = s.keys := rfl
@[simp] theorem toneStart_tone : s.toneStart.tone = some s.cfg.toneFreq := rfl
@[simp] theorem toneStart_ctl : s.toneStart.ctl = s.ctl := rfl
@[simp] theorem toneStart_inputs : s.toneStart.inputs = s.inputs := rfl
@[simp] theorem toneStart_draws : s.toneStart.draws = s.draws := rfl
@[simp] theorem toneStart_drawCount : s.toneStart.drawCount = s.drawCount := rfl
@[simp] theorem toneStart_creations : s.toneStart.creations = s.creations := rfl
@[simp] theorem toneStart_outputs :
    s.toneStart.outputs = s.outputs ++ [.toneStart s.cfg.toneFreq] := rfl
@[simp] theorem toneStart_written : s.toneStart.written = s.written := rfl
@[simp] theorem toneStart_cfg : s.toneStart.cfg = s.cfg := rfl


@[simp] theorem toneStop_mem : s.toneStop.mem = s.mem := rfl
@[simp] theorem toneStop_V : s.toneStop.V = s.V := rfl
@[simp] theorem toneStop_I : s.toneStop.I = s.I := rfl
@[simp] theorem toneStop_PC : s.toneStop.PC = s.PC := rfl
@[simp] theorem toneStop_stack : s.toneStop.stack = s.stack := rfl
@[simp] theorem toneStop_DT : s.toneStop.DT = s.DT := rfl
@[simp] theorem toneStop_ST : s.toneStop.ST = s.ST := rfl
@[simp] theorem toneStop_run : s.toneStop.run = s.run := rfl
@[simp] theorem toneStop_waitReg : s.toneStop.waitReg = s.waitReg := rfl
@[simp] theorem toneStop_fault : s.toneStop.fault = s.fault := rfl
@[simp] theorem toneStop_fb : s.toneStop.fb = s.fb := rfl
@[simp] theorem toneStop_keys : s.toneStop.keys = s.keys := rfl
@[simp] theorem toneStop_tone : s.toneStop.tone = none := rfl
@[simp] theorem toneStop_ctl : s.toneStop.ctl = s.ctl := rfl
@[simp] theorem toneStop_inputs : s.toneStop.inputs = s.inputs := rfl
@[simp] theorem toneStop_draws : s.toneStop.draws = s.draws := rfl
@[simp] theorem toneStop_drawCount : s.toneStop.drawCount = s.drawCount := rfl
@[simp] theorem toneStop_creations : s.toneStop.creations = s.creations := rfl
@[simp] theorem toneStop_outputs : s.toneStop.outputs = s.outputs ++ [.toneStop] := rfl
@[simp] theorem toneStop_written : s.toneStop.written = s.written := rfl
@[simp] theorem toneStop_cfg : s.toneStop.cfg = s.cfg := rfl


@[simp] theorem markWritten_mem (rs : List Reg) : (s.markWritten rs).mem = s.mem := rfl
@[simp] theorem markWritten_V (rs : List Reg) : (s.markWritten rs).V = s.V := rfl
@[simp] theorem markWritten_I (rs : List Reg) : (s.markWritten rs).I = s.I := rfl
@[simp] theorem markWritten_PC (rs : List Reg) : (s.markWritten rs).PC = s.PC := rfl
@[simp] theorem markWritten_stack (rs : List Reg) : (s.markWritten rs).stack = s.stack := rfl
@[simp] theorem markWritten_DT (rs : List Reg) : (s.markWritten rs).DT = s.DT := rfl
@[simp] theorem markWritten_ST (rs : List Reg) : (s.markWritten rs).ST = s.ST := rfl
@[simp] theorem markWritten_run (rs : List Reg) : (s.markWritten rs).run = s.run := rfl
@[simp] theorem markWritten_waitReg (rs : List Reg) : (s.markWritten rs).waitReg = s.waitReg := rfl
@[simp] theorem markWritten_fault (rs : List Reg) : (s.markWritten rs).fault = s.fault := rfl
@[simp] theorem markWritten_fb (rs : List Reg) : (s.markWritten rs).fb = s.fb := rfl
@[simp] theorem markWritten_keys (rs : List Reg) : (s.markWritten rs).keys = s.keys := rfl
@[simp] theorem markWritten_tone (rs : List Reg) : (s.markWritten rs).tone = s.tone := rfl
@[simp] theorem markWritten_ctl (rs : List Reg) : (s.markWritten rs).ctl = s.ctl := rfl
@[simp] theorem markWritten_inputs (rs : List Reg) : (s.markWritten rs).inputs = s.inputs := rfl
@[simp] theorem markWritten_draws (rs : List Reg) : (s.markWritten rs).draws = s.draws := rfl
@[simp] theorem markWritten_drawCount (rs : List Reg) :
    (s.markWritten rs).drawCount = s.drawCount := rfl
@[simp] theorem markWritten_creations (rs : List Reg) :
    (s.markWritten rs).creations = s.creations := rfl
@[simp] theorem markWritten_outputs (rs : List Reg) : (s.markWritten rs).outputs = s.outputs := rfl
@[simp] theorem markWritten_written (rs : List Reg) :
    (s.markWritten rs).written = rs.foldl Written.mark s.written := rfl
@[simp] theorem markWritten_cfg (rs : List Reg) : (s.markWritten rs).cfg = s.cfg := rfl


@[simp] theorem skipIf_mem (c : Bool) : (s.skipIf c).mem = s.mem := by cases c <;> rfl
@[simp] theorem skipIf_V (c : Bool) : (s.skipIf c).V = s.V := by cases c <;> rfl
@[simp] theorem skipIf_I (c : Bool) : (s.skipIf c).I = s.I := by cases c <;> rfl
@[simp] theorem skipIf_PC (c : Bool) :
    (s.skipIf c).PC = if c then s.PC + 2 else s.PC := by cases c <;> rfl
@[simp] theorem skipIf_stack (c : Bool) : (s.skipIf c).stack = s.stack := by cases c <;> rfl
@[simp] theorem skipIf_DT (c : Bool) : (s.skipIf c).DT = s.DT := by cases c <;> rfl
@[simp] theorem skipIf_ST (c : Bool) : (s.skipIf c).ST = s.ST := by cases c <;> rfl
@[simp] theorem skipIf_run (c : Bool) : (s.skipIf c).run = s.run := by cases c <;> rfl
@[simp] theorem skipIf_waitReg (c : Bool) : (s.skipIf c).waitReg = s.waitReg := by cases c <;> rfl
@[simp] theorem skipIf_fault (c : Bool) : (s.skipIf c).fault = s.fault := by cases c <;> rfl
@[simp] theorem skipIf_fb (c : Bool) : (s.skipIf c).fb = s.fb := by cases c <;> rfl
@[simp] theorem skipIf_keys (c : Bool) : (s.skipIf c).keys = s.keys := by cases c <;> rfl
@[simp] theorem skipIf_tone (c : Bool) : (s.skipIf c).tone = s.tone := by cases c <;> rfl
@[simp] theorem skipIf_ctl (c : Bool) : (s.skipIf c).ctl = s.ctl := by cases c <;> rfl
@[simp] theorem skipIf_inputs (c : Bool) : (s.skipIf c).inputs = s.inputs := by cases c <;> rfl
@[simp] theorem skipIf_draws (c : Bool) : (s.skipIf c).draws = s.draws := by cases c <;> rfl
@[simp] theorem skipIf_drawCount (c : Bool) :
    (s.skipIf c).drawCount = s.drawCount := by cases c <;> rfl
@[simp] theorem skipIf_creations (c : Bool) :
    (s.skipIf c).creations = s.creations := by cases c <;> rfl
@[simp] theorem skipIf_outputs (c : Bool) : (s.skipIf c).outputs = s.outputs := by cases c <;> rfl
@[simp] theorem skipIf_written (c : Bool) : (s.skipIf c).written = s.written := by cases c <;> rfl
@[simp] theorem skipIf_cfg (c : Bool) : (s.skipIf c).cfg = s.cfg := by cases c <;> rfl


@[simp] theorem afterRandom_mem :
    s.afterRandom.mem = s.mem := by unfold State.afterRandom; cases s.draws <;> rfl
@[simp] theorem afterRandom_V :
    s.afterRandom.V = s.V := by unfold State.afterRandom; cases s.draws <;> rfl
@[simp] theorem afterRandom_I :
    s.afterRandom.I = s.I := by unfold State.afterRandom; cases s.draws <;> rfl
@[simp] theorem afterRandom_PC :
    s.afterRandom.PC = s.PC := by unfold State.afterRandom; cases s.draws <;> rfl
@[simp] theorem afterRandom_stack :
    s.afterRandom.stack = s.stack := by unfold State.afterRandom; cases s.draws <;> rfl
@[simp] theorem afterRandom_DT :
    s.afterRandom.DT = s.DT := by unfold State.afterRandom; cases s.draws <;> rfl
@[simp] theorem afterRandom_ST :
    s.afterRandom.ST = s.ST := by unfold State.afterRandom; cases s.draws <;> rfl
@[simp] theorem afterRandom_run :
    s.afterRandom.run = s.run := by unfold State.afterRandom; cases s.draws <;> rfl
@[simp] theorem afterRandom_waitReg :
    s.afterRandom.waitReg = s.waitReg := by unfold State.afterRandom; cases s.draws <;> rfl
@[simp] theorem afterRandom_fault :
    s.afterRandom.fault = s.fault := by unfold State.afterRandom; cases s.draws <;> rfl
@[simp] theorem afterRandom_fb :
    s.afterRandom.fb = s.fb := by unfold State.afterRandom; cases s.draws <;> rfl
@[simp] theorem afterRandom_keys :
    s.afterRandom.keys = s.keys := by unfold State.afterRandom; cases s.draws <;> rfl
@[simp] theorem afterRandom_tone :
    s.afterRandom.tone = s.tone := by unfold State.afterRandom; cases s.draws <;> rfl
@[simp] theorem afterRandom_ctl :
    s.afterRandom.ctl = s.ctl := by unfold State.afterRandom; cases s.draws <;> rfl
@[simp] theorem afterRandom_inputs :
    s.afterRandom.inputs = s.inputs := by unfold State.afterRandom; cases s.draws <;> rfl
@[simp] theorem afterRandom_draws :
    s.afterRandom.draws = s.draws.tail := by unfold State.afterRandom; split <;> simp_all
@[simp] theorem afterRandom_drawCount :
    s.afterRandom.drawCount =
      if s.draws = [] then s.drawCount + 1 else s.drawCount := by unfold State.afterRandom; split <;> simp_all
@[simp] theorem afterRandom_creations :
    s.afterRandom.creations = s.creations := by unfold State.afterRandom; cases s.draws <;> rfl
@[simp] theorem afterRandom_outputs :
    s.afterRandom.outputs = s.outputs := by unfold State.afterRandom; cases s.draws <;> rfl
@[simp] theorem afterRandom_written :
    s.afterRandom.written = s.written := by unfold State.afterRandom; cases s.draws <;> rfl
@[simp] theorem afterRandom_cfg :
    s.afterRandom.cfg = s.cfg := by unfold State.afterRandom; cases s.draws <;> rfl

/-- The byte taken when the environment has listed one (log 6). -/
theorem nextRandom_of_cons {r : Byte} {rest : List Byte} (h : s.draws = r :: rest) :
    s.nextRandom = r := by simp [State.nextRandom, h]

/-- The byte taken when none is listed: the free byte of the counter (log 6). -/
theorem nextRandom_of_nil (h : s.draws = []) :
    s.nextRandom = Config.freeRandom s.drawCount := by simp [State.nextRandom, h]

/-- What a run of stores can do: change memory and nothing else. -/
theorem storeBytes_eq : ∀ (bs : List Byte) (s : State) (a : Nat),
    s.storeBytes a bs = { s with mem := (s.storeBytes a bs).mem }
  | [], _, _ => rfl
  | b :: bs, s, a => by
    have h := storeBytes_eq bs (s.memWrite a b) (a + 1)
    rw [State.storeBytes, h]; rfl

@[simp] theorem storeBytes_V (a : Nat) (bs : List Byte) :
    (s.storeBytes a bs).V = s.V := by rw [storeBytes_eq]
@[simp] theorem storeBytes_I (a : Nat) (bs : List Byte) :
    (s.storeBytes a bs).I = s.I := by rw [storeBytes_eq]
@[simp] theorem storeBytes_PC (a : Nat) (bs : List Byte) :
    (s.storeBytes a bs).PC = s.PC := by rw [storeBytes_eq]
@[simp] theorem storeBytes_stack (a : Nat) (bs : List Byte) :
    (s.storeBytes a bs).stack = s.stack := by rw [storeBytes_eq]
@[simp] theorem storeBytes_DT (a : Nat) (bs : List Byte) :
    (s.storeBytes a bs).DT = s.DT := by rw [storeBytes_eq]
@[simp] theorem storeBytes_ST (a : Nat) (bs : List Byte) :
    (s.storeBytes a bs).ST = s.ST := by rw [storeBytes_eq]
@[simp] theorem storeBytes_run (a : Nat) (bs : List Byte) :
    (s.storeBytes a bs).run = s.run := by rw [storeBytes_eq]
@[simp] theorem storeBytes_waitReg (a : Nat) (bs : List Byte) :
    (s.storeBytes a bs).waitReg = s.waitReg := by rw [storeBytes_eq]
@[simp] theorem storeBytes_fault (a : Nat) (bs : List Byte) :
    (s.storeBytes a bs).fault = s.fault := by rw [storeBytes_eq]
@[simp] theorem storeBytes_fb (a : Nat) (bs : List Byte) :
    (s.storeBytes a bs).fb = s.fb := by rw [storeBytes_eq]
@[simp] theorem storeBytes_keys (a : Nat) (bs : List Byte) :
    (s.storeBytes a bs).keys = s.keys := by rw [storeBytes_eq]
@[simp] theorem storeBytes_tone (a : Nat) (bs : List Byte) :
    (s.storeBytes a bs).tone = s.tone := by rw [storeBytes_eq]
@[simp] theorem storeBytes_ctl (a : Nat) (bs : List Byte) :
    (s.storeBytes a bs).ctl = s.ctl := by rw [storeBytes_eq]
@[simp] theorem storeBytes_inputs (a : Nat) (bs : List Byte) :
    (s.storeBytes a bs).inputs = s.inputs := by rw [storeBytes_eq]
@[simp] theorem storeBytes_draws (a : Nat) (bs : List Byte) :
    (s.storeBytes a bs).draws = s.draws := by rw [storeBytes_eq]
@[simp] theorem storeBytes_drawCount (a : Nat) (bs : List Byte) :
    (s.storeBytes a bs).drawCount = s.drawCount := by rw [storeBytes_eq]
@[simp] theorem storeBytes_creations (a : Nat) (bs : List Byte) :
    (s.storeBytes a bs).creations = s.creations := by rw [storeBytes_eq]
@[simp] theorem storeBytes_outputs (a : Nat) (bs : List Byte) :
    (s.storeBytes a bs).outputs = s.outputs := by rw [storeBytes_eq]
@[simp] theorem storeBytes_written (a : Nat) (bs : List Byte) :
    (s.storeBytes a bs).written = s.written := by rw [storeBytes_eq]
@[simp] theorem storeBytes_cfg (a : Nat) (bs : List Byte) :
    (s.storeBytes a bs).cfg = s.cfg := by rw [storeBytes_eq]

/-- What a run of register loads can do: change V and nothing else. -/
theorem loadRegs_eq (s : State) (a : Nat) : ∀ n : Nat,
    s.loadRegs a n = { s with V := (s.loadRegs a n).V }
  | 0 => rfl
  | n + 1 => by
    have h := loadRegs_eq s a n
    rw [State.loadRegs, h]; rfl

@[simp] theorem loadRegs_mem (a n : Nat) : (s.loadRegs a n).mem = s.mem := by rw [loadRegs_eq]
@[simp] theorem loadRegs_I (a n : Nat) : (s.loadRegs a n).I = s.I := by rw [loadRegs_eq]
@[simp] theorem loadRegs_PC (a n : Nat) : (s.loadRegs a n).PC = s.PC := by rw [loadRegs_eq]
@[simp] theorem loadRegs_stack (a n : Nat) : (s.loadRegs a n).stack = s.stack := by rw [loadRegs_eq]
@[simp] theorem loadRegs_DT (a n : Nat) : (s.loadRegs a n).DT = s.DT := by rw [loadRegs_eq]
@[simp] theorem loadRegs_ST (a n : Nat) : (s.loadRegs a n).ST = s.ST := by rw [loadRegs_eq]
@[simp] theorem loadRegs_run (a n : Nat) : (s.loadRegs a n).run = s.run := by rw [loadRegs_eq]
@[simp] theorem loadRegs_waitReg (a n : Nat) :
    (s.loadRegs a n).waitReg = s.waitReg := by rw [loadRegs_eq]
@[simp] theorem loadRegs_fault (a n : Nat) : (s.loadRegs a n).fault = s.fault := by rw [loadRegs_eq]
@[simp] theorem loadRegs_fb (a n : Nat) : (s.loadRegs a n).fb = s.fb := by rw [loadRegs_eq]
@[simp] theorem loadRegs_keys (a n : Nat) : (s.loadRegs a n).keys = s.keys := by rw [loadRegs_eq]
@[simp] theorem loadRegs_tone (a n : Nat) : (s.loadRegs a n).tone = s.tone := by rw [loadRegs_eq]
@[simp] theorem loadRegs_ctl (a n : Nat) : (s.loadRegs a n).ctl = s.ctl := by rw [loadRegs_eq]
@[simp] theorem loadRegs_inputs (a n : Nat) :
    (s.loadRegs a n).inputs = s.inputs := by rw [loadRegs_eq]
@[simp] theorem loadRegs_draws (a n : Nat) : (s.loadRegs a n).draws = s.draws := by rw [loadRegs_eq]
@[simp] theorem loadRegs_drawCount (a n : Nat) :
    (s.loadRegs a n).drawCount = s.drawCount := by rw [loadRegs_eq]
@[simp] theorem loadRegs_creations (a n : Nat) :
    (s.loadRegs a n).creations = s.creations := by rw [loadRegs_eq]
@[simp] theorem loadRegs_outputs (a n : Nat) :
    (s.loadRegs a n).outputs = s.outputs := by rw [loadRegs_eq]
@[simp] theorem loadRegs_written (a n : Nat) :
    (s.loadRegs a n).written = s.written := by rw [loadRegs_eq]
@[simp] theorem loadRegs_cfg (a n : Nat) : (s.loadRegs a n).cfg = s.cfg := by rw [loadRegs_eq]

/-- What a run of toggles can do: change the grid and issue the toggles, in order, and nothing else. -/
theorem togglePixels_eq : ∀ (ps : List (Nat × Nat)) (s : State),
    (s.togglePixels ps).2 =
      { s with
        fb := ps.foldl (fun f p => Framebuffer.toggle f (pixelKey s.cfg p.1 p.2)) s.fb
        outputs := s.outputs ++ ps.map fun p => .fbTogglePixel p.1 p.2 }
  | [], s => by simp [State.togglePixels]
  | p :: ps, s => by
    simp only [State.togglePixels, togglePixels_eq ps]
    simp [State.togglePixel]

@[simp] theorem togglePixels_mem (ps : List (Nat × Nat)) :
    ((s.togglePixels ps).2).mem = s.mem := by rw [togglePixels_eq]
@[simp] theorem togglePixels_V (ps : List (Nat × Nat)) :
    ((s.togglePixels ps).2).V = s.V := by rw [togglePixels_eq]
@[simp] theorem togglePixels_I (ps : List (Nat × Nat)) :
    ((s.togglePixels ps).2).I = s.I := by rw [togglePixels_eq]
@[simp] theorem togglePixels_PC (ps : List (Nat × Nat)) :
    ((s.togglePixels ps).2).PC = s.PC := by rw [togglePixels_eq]
@[simp] theorem togglePixels_stack (ps : List (Nat × Nat)) :
    ((s.togglePixels ps).2).stack = s.stack := by rw [togglePixels_eq]
@[simp] theorem togglePixels_DT (ps : List (Nat × Nat)) :
    ((s.togglePixels ps).2).DT = s.DT := by rw [togglePixels_eq]
@[simp] theorem togglePixels_ST (ps : List (Nat × Nat)) :
    ((s.togglePixels ps).2).ST = s.ST := by rw [togglePixels_eq]
@[simp] theorem togglePixels_run (ps : List (Nat × Nat)) :
    ((s.togglePixels ps).2).run = s.run := by rw [togglePixels_eq]
@[simp] theorem togglePixels_waitReg (ps : List (Nat × Nat)) :
    ((s.togglePixels ps).2).waitReg = s.waitReg := by rw [togglePixels_eq]
@[simp] theorem togglePixels_fault (ps : List (Nat × Nat)) :
    ((s.togglePixels ps).2).fault = s.fault := by rw [togglePixels_eq]
@[simp] theorem togglePixels_fb (ps : List (Nat × Nat)) :
    ((s.togglePixels ps).2).fb =
      ps.foldl (fun f p => Framebuffer.toggle f (pixelKey s.cfg p.1 p.2)) s.fb := by rw [togglePixels_eq]
@[simp] theorem togglePixels_keys (ps : List (Nat × Nat)) :
    ((s.togglePixels ps).2).keys = s.keys := by rw [togglePixels_eq]
@[simp] theorem togglePixels_tone (ps : List (Nat × Nat)) :
    ((s.togglePixels ps).2).tone = s.tone := by rw [togglePixels_eq]
@[simp] theorem togglePixels_ctl (ps : List (Nat × Nat)) :
    ((s.togglePixels ps).2).ctl = s.ctl := by rw [togglePixels_eq]
@[simp] theorem togglePixels_inputs (ps : List (Nat × Nat)) :
    ((s.togglePixels ps).2).inputs = s.inputs := by rw [togglePixels_eq]
@[simp] theorem togglePixels_draws (ps : List (Nat × Nat)) :
    ((s.togglePixels ps).2).draws = s.draws := by rw [togglePixels_eq]
@[simp] theorem togglePixels_drawCount (ps : List (Nat × Nat)) :
    ((s.togglePixels ps).2).drawCount = s.drawCount := by rw [togglePixels_eq]
@[simp] theorem togglePixels_creations (ps : List (Nat × Nat)) :
    ((s.togglePixels ps).2).creations = s.creations := by rw [togglePixels_eq]
@[simp] theorem togglePixels_outputs (ps : List (Nat × Nat)) :
    ((s.togglePixels ps).2).outputs =
      s.outputs ++ ps.map fun p => .fbTogglePixel p.1 p.2 := by rw [togglePixels_eq]
@[simp] theorem togglePixels_written (ps : List (Nat × Nat)) :
    ((s.togglePixels ps).2).written = s.written := by rw [togglePixels_eq]
@[simp] theorem togglePixels_cfg (ps : List (Nat × Nat)) :
    ((s.togglePixels ps).2).cfg = s.cfg := by rw [togglePixels_eq]

/-! ## Reads of memory, registers and pixels through an operation that does not touch them -/

@[simp] theorem memRead_writeV (x : RegIdx) (b : Byte) (a' : Nat) :
    (s.writeV x b).memRead a' = s.memRead a' := by simp [State.memRead]
@[simp] theorem pixelOn_writeV (x : RegIdx) (b : Byte) (qx qy : Nat) :
    (s.writeV x b).pixelOn qx qy = s.pixelOn qx qy := pixelOn_congr (by simp) (by simp) _ _
@[simp] theorem readV_memWrite (a : Nat) (b : Byte) (y : RegIdx) :
    (s.memWrite a b).readV y = s.readV y := by simp [State.readV]
@[simp] theorem pixelOn_memWrite (a : Nat) (b : Byte) (qx qy : Nat) :
    (s.memWrite a b).pixelOn qx qy = s.pixelOn qx qy := pixelOn_congr (by simp) (by simp) _ _
@[simp] theorem memRead_push (v : Word) (a' : Nat) :
    (s.push v).memRead a' = s.memRead a' := by simp [State.memRead]
@[simp] theorem readV_push (v : Word) (y : RegIdx) :
    (s.push v).readV y = s.readV y := by simp [State.readV]
@[simp] theorem pixelOn_push (v : Word) (qx qy : Nat) :
    (s.push v).pixelOn qx qy = s.pixelOn qx qy := pixelOn_congr (by simp) (by simp) _ _
@[simp] theorem memRead_emit (o : Output) (a' : Nat) :
    (s.emit o).memRead a' = s.memRead a' := by simp [State.memRead]
@[simp] theorem readV_emit (o : Output) (y : RegIdx) :
    (s.emit o).readV y = s.readV y := by simp [State.readV]
@[simp] theorem pixelOn_emit (o : Output) (qx qy : Nat) :
    (s.emit o).pixelOn qx qy = s.pixelOn qx qy := pixelOn_congr (by simp) (by simp) _ _
@[simp] theorem memRead_raiseFault (c : FaultCause) (op a : Word) (a' : Nat) :
    (s.raiseFault c op a).memRead a' = s.memRead a' := by simp [State.memRead]
@[simp] theorem readV_raiseFault (c : FaultCause) (op a : Word) (y : RegIdx) :
    (s.raiseFault c op a).readV y = s.readV y := by simp [State.readV]
@[simp] theorem pixelOn_raiseFault (c : FaultCause) (op a : Word) (qx qy : Nat) :
    (s.raiseFault c op a).pixelOn qx qy = s.pixelOn qx qy := pixelOn_congr (by simp) (by simp) _ _
@[simp] theorem memRead_clearFb (a' : Nat) :
    s.clearFb.memRead a' = s.memRead a' := by simp [State.memRead]
@[simp] theorem readV_clearFb (y : RegIdx) : s.clearFb.readV y = s.readV y := by simp [State.readV]
@[simp] theorem memRead_togglePixel (px py : Nat) (a' : Nat) :
    (s.togglePixel px py).memRead a' = s.memRead a' := by simp [State.memRead]
@[simp] theorem readV_togglePixel (px py : Nat) (y : RegIdx) :
    (s.togglePixel px py).readV y = s.readV y := by simp [State.readV]
@[simp] theorem memRead_present (a' : Nat) :
    s.present.memRead a' = s.memRead a' := by simp [State.memRead]
@[simp] theorem readV_present (y : RegIdx) : s.present.readV y = s.readV y := by simp [State.readV]
@[simp] theorem pixelOn_present (qx qy : Nat) :
    s.present.pixelOn qx qy = s.pixelOn qx qy := pixelOn_congr (by simp) (by simp) _ _
@[simp] theorem memRead_toneStart (a' : Nat) :
    s.toneStart.memRead a' = s.memRead a' := by simp [State.memRead]
@[simp] theorem readV_toneStart (y : RegIdx) :
    s.toneStart.readV y = s.readV y := by simp [State.readV]
@[simp] theorem pixelOn_toneStart (qx qy : Nat) :
    s.toneStart.pixelOn qx qy = s.pixelOn qx qy := pixelOn_congr (by simp) (by simp) _ _
@[simp] theorem memRead_toneStop (a' : Nat) :
    s.toneStop.memRead a' = s.memRead a' := by simp [State.memRead]
@[simp] theorem readV_toneStop (y : RegIdx) :
    s.toneStop.readV y = s.readV y := by simp [State.readV]
@[simp] theorem pixelOn_toneStop (qx qy : Nat) :
    s.toneStop.pixelOn qx qy = s.pixelOn qx qy := pixelOn_congr (by simp) (by simp) _ _
@[simp] theorem memRead_markWritten (rs : List Reg) (a' : Nat) :
    (s.markWritten rs).memRead a' = s.memRead a' := by simp [State.memRead]
@[simp] theorem readV_markWritten (rs : List Reg) (y : RegIdx) :
    (s.markWritten rs).readV y = s.readV y := by simp [State.readV]
@[simp] theorem pixelOn_markWritten (rs : List Reg) (qx qy : Nat) :
    (s.markWritten rs).pixelOn qx qy = s.pixelOn qx qy := pixelOn_congr (by simp) (by simp) _ _
@[simp] theorem memRead_skipIf (c : Bool) (a' : Nat) :
    (s.skipIf c).memRead a' = s.memRead a' := by simp [State.memRead]
@[simp] theorem readV_skipIf (c : Bool) (y : RegIdx) :
    (s.skipIf c).readV y = s.readV y := by simp [State.readV]
@[simp] theorem pixelOn_skipIf (c : Bool) (qx qy : Nat) :
    (s.skipIf c).pixelOn qx qy = s.pixelOn qx qy := pixelOn_congr (by simp) (by simp) _ _
@[simp] theorem memRead_afterRandom (a' : Nat) :
    s.afterRandom.memRead a' = s.memRead a' := by simp [State.memRead]
@[simp] theorem readV_afterRandom (y : RegIdx) :
    s.afterRandom.readV y = s.readV y := by simp [State.readV]
@[simp] theorem pixelOn_afterRandom (qx qy : Nat) :
    s.afterRandom.pixelOn qx qy = s.pixelOn qx qy := pixelOn_congr (by simp) (by simp) _ _
@[simp] theorem readV_storeBytes (a : Nat) (bs : List Byte) (y : RegIdx) :
    (s.storeBytes a bs).readV y = s.readV y := by simp [State.readV]
@[simp] theorem pixelOn_storeBytes (a : Nat) (bs : List Byte) (qx qy : Nat) :
    (s.storeBytes a bs).pixelOn qx qy = s.pixelOn qx qy := pixelOn_congr (by simp) (by simp) _ _
@[simp] theorem memRead_loadRegs (a n : Nat) (a' : Nat) :
    (s.loadRegs a n).memRead a' = s.memRead a' := by simp [State.memRead]
@[simp] theorem pixelOn_loadRegs (a n : Nat) (qx qy : Nat) :
    (s.loadRegs a n).pixelOn qx qy = s.pixelOn qx qy := pixelOn_congr (by simp) (by simp) _ _
@[simp] theorem memRead_togglePixels (ps : List (Nat × Nat)) (a' : Nat) :
    ((s.togglePixels ps).2).memRead a' = s.memRead a' := by simp [State.memRead]
@[simp] theorem readV_togglePixels (ps : List (Nat × Nat)) (y : RegIdx) :
    ((s.togglePixels ps).2).readV y = s.readV y := by simp [State.readV]

/-! ## Register reads -/

@[simp] theorem readV_writeV_same (x : RegIdx) (b : Byte) : (s.writeV x b).readV x = b := by
  simp [State.readV]

theorem readV_writeV (x y : RegIdx) (b : Byte) :
    (s.writeV x b).readV y = if y = x then b else s.readV y := by
  simp only [State.readV, writeV_V, Vector.getElem_set]
  by_cases h : y = x
  · simp [h]
  · have : x.val ≠ y.val := fun e => h (Fin.ext e.symm)
    simp [h, this]

@[simp] theorem readV_writeV_other {x y : RegIdx} (b : Byte) (h : y ≠ x) :
    (s.writeV x b).readV y = s.readV y := by simp [readV_writeV, h]

/-- V[x] after `V[0] .. V[n-1]` were loaded (43_index_memory R226). -/
theorem readV_loadRegs (a : Nat) (x : RegIdx) : ∀ n, n ≤ 16 →
    (s.loadRegs a n).readV x = if x.val < n then s.memRead (a + x.val) else s.readV x
  | 0, _ => by simp [State.loadRegs]
  | n + 1, h => by
    rw [State.loadRegs, readV_writeV, readV_loadRegs a x n (by omega)]
    have hn : (Fin.ofNat 16 n).val = n := Nat.mod_eq_of_lt (by omega)
    by_cases hx : x = Fin.ofNat 16 n
    · have : x.val = n := by rw [hx, hn]
      rw [if_pos hx, if_pos (by omega), this]
    · have : x.val ≠ n := fun e => hx (Fin.ext (by rw [hn, e]))
      have h2 : x.val < n + 1 ↔ x.val < n := by omega
      rw [if_neg hx]
      simp only [h2]

/-- Whether any toggle of a run turned a pixel off depends on the grid and the configuration alone. -/
theorem togglePixels_hit_cons (p : Nat × Nat) (ps : List (Nat × Nat)) :
    (s.togglePixels (p :: ps)).1 =
      (s.pixelOn p.1 p.2 || ((s.togglePixel p.1 p.2).togglePixels ps).1) := rfl

end Sys2Proof.Machine
end

