-- ==== Sys2Proof/Laws/Exec.lean ====
section
/-! SUPPORT. What any instruction can do: it always answers a next state, and it never touches the
configuration, the environment's key table and schedule, the tone generator or the written record. -/

namespace Sys2Proof.Machine

/-- No instruction stops the machine: each answers a next state, stack faults included
(60_exceptions R283, R287). -/
theorem exec_answers_next (i : Instr) (s : State) : ∃ t, exec i s = .next t := by
  cases i
  case ret =>
    simp only [exec, execRet]
    split <;> exact ⟨_, rfl⟩
  case call =>
    simp only [exec, execCall]
    split <;> exact ⟨_, rfl⟩
  all_goals exact ⟨_, rfl⟩

/-- RET, case by case. -/
theorem execRet_cases {s t : State} (h : exec .ret s = .next t) :
    (s.stack = [] ∧ t = s.raiseFault .stackUnderflow (encode .ret) s.fetchPc) ∨
    (∃ below v, s.stack = below ++ [v] ∧ t = { s with PC := v, stack := below }) := by
  simp only [exec, execRet] at h
  rcases List.eq_nil_or_concat s.stack with hs | ⟨below, v, hs⟩
  · simp only [hs, List.getLast?_nil] at h
    cases h
    exact .inl ⟨hs, rfl⟩
  · simp only [hs, List.concat_eq_append, List.getLast?_append, List.getLast?_singleton,
      Option.some_or, List.dropLast_concat] at h
    cases h
    exact .inr ⟨below, v, by simpa using hs, rfl⟩

/-- CALL, case by case. -/
theorem execCall_cases {nnn : Addr} {s t : State} (h : exec (.call nnn) s = .next t) :
    (s.stackFull = true ∧
      t = s.raiseFault .stackOverflow (encode (.call nnn)) s.fetchPc) ∨
    (s.stackFull = false ∧ t = { s.push s.PC with PC := zext16 nnn }) := by
  simp only [exec, execCall] at h
  split at h
  · rename_i hf
    cases h
    exact .inl ⟨hf, rfl⟩
  · rename_i hf
    cases h
    exact .inr ⟨by simpa using hf, rfl⟩

/-- A full stack holds exactly `STACK_DEPTH` entries (41_flow R153). -/
theorem stackFull_iff (s : State) :
    s.stackFull = true ↔ s.cfg.stackDepth = some s.stack.length := by
  unfold State.stackFull
  cases h : s.cfg.stackDepth with
  | none => simp
  | some d =>
    simp only [beq_iff_eq, Option.some.injEq]
    exact eq_comm

/-- What no instruction changes. -/
structure SameEnvironment (s t : State) : Prop where
  cfg : t.cfg = s.cfg
  keys : t.keys = s.keys
  inputs : t.inputs = s.inputs
  tone : t.tone = s.tone
  written : t.written = s.written
  creations : t.creations = s.creations

/-- No instruction touches the configuration, the key table, the schedule, the tone generator or the
written record (10_state R36, R44, R45, 40_cycle R132). -/
theorem exec_sameEnvironment {i : Instr} {s t : State} (h : exec i s = .next t) :
    SameEnvironment s t := by
  cases i
  case ret => rcases execRet_cases h with ⟨_, rfl⟩ | ⟨_, _, _, rfl⟩ <;> constructor <;> rfl
  case call => rcases execCall_cases h with ⟨_, rfl⟩ | ⟨_, rfl⟩ <;> constructor <;> rfl
  all_goals
    simp only [exec, execJp, execSeImm, execSneImm, execSeReg, execSneReg, execJpV0, execLdImm,
      execAddImm, execLdReg, execOrReg, execAndReg, execXorReg, execAddReg, execSub, execShr,
      execSubn, execShl, execRnd, execLdI, execAddIVx, execLdFVx, execLdBVx, execLdMemVx,
      execLdVxMem, execCls, execDrw, execSkp, execSknp, execLdVxDt, execLdVxK, execLdDtVx,
      execLdStVx] at h
    cases h
    constructor <;> simp

/-- What an instruction other than RET, CALL and Fx0A leaves alone besides. -/
structure SameControl (s t : State) : Prop where
  run : t.run = s.run
  waitReg : t.waitReg = s.waitReg
  fault : t.fault = s.fault
  ctl : t.ctl = s.ctl
  stack : t.stack = s.stack

/-- Only RET, CALL and Fx0A touch the run state, the fault record, the control state, `wait_reg` or the
stack (10_state R28, R38). -/
theorem exec_sameControl {i : Instr} {s t : State} (hr : i ≠ .ret) (hc : ∀ nnn, i ≠ .call nnn)
    (hk : ∀ x, i ≠ .ldVxK x) (h : exec i s = .next t) : SameControl s t := by
  cases i
  case ret => exact absurd rfl hr
  case call nnn => exact absurd rfl (hc nnn)
  case ldVxK x => exact absurd rfl (hk x)
  all_goals
    simp only [exec, execJp, execSeImm, execSneImm, execSeReg, execSneReg, execJpV0, execLdImm,
      execAddImm, execLdReg, execOrReg, execAndReg, execXorReg, execAddReg, execSub, execShr,
      execSubn, execShl, execRnd, execLdI, execAddIVx, execLdFVx, execLdBVx, execLdMemVx,
      execLdVxMem, execCls, execDrw, execSkp, execSknp, execLdVxDt, execLdDtVx, execLdStVx] at h
    cases h
    constructor <;> simp

end Sys2Proof.Machine
end

