-- ==== Sys2Proof/Laws/Framebuffer.lean ====
section
/-! SUPPORT. The framebuffer's strictly rising list: what a toggle does to it. -/

namespace Sys2Proof.Machine

/-- Keys of a list after a toggle: an old key or the toggled one. -/
theorem Framebuffer.mem_toggle_imp {p q : Nat} :
    ∀ {fb : Framebuffer}, q ∈ Framebuffer.toggle fb p → q = p ∨ q ∈ fb
  | [], h => by simpa [Framebuffer.toggle] using h
  | r :: rs, h => by
    simp only [Framebuffer.toggle] at h
    split at h
    · simpa using h
    · split at h
      · simp [h]
      · rcases List.mem_cons.1 h with h | h
        · simp [h]
        · rcases Framebuffer.mem_toggle_imp h with h | h <;> simp [h]

/-- A toggle keeps the list strictly rising. -/
theorem Framebuffer.toggle_sorted {p : Nat} :
    ∀ {fb : Framebuffer}, fb.Pairwise (· < ·) → (Framebuffer.toggle fb p).Pairwise (· < ·)
  | [], _ => by simp [Framebuffer.toggle]
  | r :: rs, h => by
    have hr := List.pairwise_cons.1 h
    simp only [Framebuffer.toggle]
    split
    · rename_i hpr
      refine List.pairwise_cons.2 ⟨fun q hq => ?_, h⟩
      rcases List.mem_cons.1 hq with rfl | hq
      · exact hpr
      · exact Nat.lt_trans hpr (hr.1 q hq)
    · split
      · exact hr.2
      · refine List.pairwise_cons.2 ⟨fun q hq => ?_, Framebuffer.toggle_sorted hr.2⟩
        rcases Framebuffer.mem_toggle_imp hq with rfl | hq
        · omega
        · exact hr.1 q hq

/-- A toggle flips the toggled key and no other. -/
theorem Framebuffer.mem_toggle {p q : Nat} :
    ∀ {fb : Framebuffer}, fb.Pairwise (· < ·) →
      (q ∈ Framebuffer.toggle fb p ↔ if q = p then q ∉ fb else q ∈ fb)
  | [], _ => by simp [Framebuffer.toggle]
  | r :: rs, h => by
    have hr := List.pairwise_cons.1 h
    have ih := Framebuffer.mem_toggle (p := p) (q := q) hr.2
    simp only [Framebuffer.toggle]
    by_cases hq : q = p
    · subst hq
      split
      · rename_i hlt
        have : q ∉ rs := fun hm => by have := hr.1 q hm; omega
        simp [this]; omega
      · split
        · rename_i _ he
          subst he
          simp; exact fun hm => absurd (hr.1 q hm) (Nat.lt_irrefl q)
        · rename_i _ hne
          simp at ih
          simp [ih, hne]
    · simp only [hq, if_false] at ih
      split
      · simp [hq]
      · split
        · rename_i _ he
          subst he
          simp [hq]
        · simp [ih]

/-- Strictly rising lists with the same members are equal. -/
theorem Framebuffer.ext {fb fb' : Framebuffer} (h : fb.Pairwise (· < ·)) (h' : fb'.Pairwise (· < ·))
    (hm : ∀ p, p ∈ fb ↔ p ∈ fb') : fb = fb' := by
  have hp : fb.Perm fb' := (List.perm_ext_iff_of_nodup
    (h.imp fun h => Nat.ne_of_lt h) (h'.imp fun h => Nat.ne_of_lt h)).2 hm
  exact hp.eq_of_pairwise (fun a b _ _ h1 h2 => absurd h1 (Nat.lt_asymm h2)) h h'

/-- Toggling the same key twice changes nothing. -/
theorem Framebuffer.toggle_toggle {fb : Framebuffer} (h : fb.Pairwise (· < ·)) (p : Nat) :
    Framebuffer.toggle (Framebuffer.toggle fb p) p = fb :=
  Framebuffer.ext (Framebuffer.toggle_sorted (Framebuffer.toggle_sorted h)) h fun q => by
    rw [Framebuffer.mem_toggle (Framebuffer.toggle_sorted h), Framebuffer.mem_toggle h]
    by_cases hq : q = p <;> simp [hq]

/-- Toggles of any two keys commute. -/
theorem Framebuffer.toggle_comm {fb : Framebuffer} (h : fb.Pairwise (· < ·)) (p q : Nat) :
    Framebuffer.toggle (Framebuffer.toggle fb p) q = Framebuffer.toggle (Framebuffer.toggle fb q) p :=
  Framebuffer.ext (Framebuffer.toggle_sorted (Framebuffer.toggle_sorted h))
    (Framebuffer.toggle_sorted (Framebuffer.toggle_sorted h)) fun r => by
    rw [Framebuffer.mem_toggle (Framebuffer.toggle_sorted h), Framebuffer.mem_toggle h,
      Framebuffer.mem_toggle (Framebuffer.toggle_sorted h), Framebuffer.mem_toggle h]
    split_ifs <;> simp_all

/-- The key of a pixel lies in the grid. -/
theorem pixelKey_lt {c : Config} (hw : 0 < c.fbWidth) (hh : 0 < c.fbHeight) (px py : Nat) :
    pixelKey c px py < c.fbWidth * c.fbHeight := by
  have h1 : py % c.fbHeight < c.fbHeight := Nat.mod_lt _ hh
  have h2 : px % c.fbWidth < c.fbWidth := Nat.mod_lt _ hw
  have h3 : (py % c.fbHeight + 1) * c.fbWidth ≤ c.fbHeight * c.fbWidth := Nat.mul_le_mul_right _ h1
  rw [Nat.add_mul] at h3
  rw [Nat.mul_comm c.fbWidth]
  unfold pixelKey
  omega

/-- Two pixels have one key exactly when both coordinates agree after the wrap (10_state R42). -/
theorem pixelKey_eq_iff {c : Config} (hw : 0 < c.fbWidth) (px py qx qy : Nat) :
    pixelKey c px py = pixelKey c qx qy ↔
      px % c.fbWidth = qx % c.fbWidth ∧ py % c.fbHeight = qy % c.fbHeight := by
  have h1 : px % c.fbWidth < c.fbWidth := Nat.mod_lt _ hw
  have h2 : qx % c.fbWidth < c.fbWidth := Nat.mod_lt _ hw
  unfold pixelKey
  constructor
  · intro h
    have hx : px % c.fbWidth = qx % c.fbWidth := by
      have := congrArg (· % c.fbWidth) h
      simpa [Nat.mul_add_mod_of_lt, h1, h2, Nat.add_mod, Nat.mod_eq_of_lt] using this
    refine ⟨hx, ?_⟩
    rw [hx] at h
    exact Nat.eq_of_mul_eq_mul_right hw (Nat.add_right_cancel h)
  · rintro ⟨h3, h4⟩
    rw [h3, h4]

/-- A toggle keeps the canonical form of the grid. -/
theorem Framebuffer.wf_toggle {c : Config} (hw : 0 < c.fbWidth) (hh : 0 < c.fbHeight)
    {fb : Framebuffer} (h : Framebuffer.wf c fb) (px py : Nat) :
    Framebuffer.wf c (Framebuffer.toggle fb (pixelKey c px py)) :=
  ⟨Framebuffer.toggle_sorted h.1, fun q hq => by
    rcases Framebuffer.mem_toggle_imp hq with rfl | hq
    · exact pixelKey_lt hw hh px py
    · exact h.2 q hq⟩

theorem Framebuffer.wf_nil (c : Config) : Framebuffer.wf c [] := by simp [Framebuffer.wf]

end Sys2Proof.Machine
end

