-- ==== Sys2Proof/Laws/Memory.lean ====
section
/-! SUPPORT. Memory: read after write, and every operation keeps the canonical form. -/

namespace Sys2Proof.Machine

theorem Memory.get_eq_blank {font : Vector Byte 80} :
    ∀ {m : Memory} {a : Nat}, (∀ p ∈ m, p.1 ≠ a) → Memory.get font m a = Memory.blank font a
  | [], _, _ => rfl
  | (k, b) :: m, a, h => by
    have hk : a ≠ k := fun e => h (k, b) (by simp) e.symm
    simp only [Memory.get, hk, if_false]
    exact Memory.get_eq_blank fun p hp => h p (by simp [hp])

/-- Entries of a memory after a store: the stored one or an old one. -/
theorem Memory.mem_set {font : Vector Byte 80} {a : Nat} {b : Byte} {p : Host.Cell} :
    ∀ {m : Memory}, p ∈ Memory.set font m a b →
      (p = (a, b) ∧ b ≠ Memory.blank font a) ∨ p ∈ m
  | [], h => by
    simp only [Memory.set] at h
    split at h <;> simp_all
  | (k, c) :: m, h => by
    simp only [Memory.set] at h
    split at h
    · split at h
      · exact .inr h
      · simp only [List.mem_cons] at h
        rcases h with h | h | h <;> simp_all
    · split at h
      · split at h
        · simp [h]
        · simp only [List.mem_cons] at h
          rcases h with h | h <;> simp_all
      · simp only [List.mem_cons] at h
        rcases h with h | h
        · simp [h]
        · rcases Memory.mem_set h with h | h
          · exact .inl h
          · simp [h]

/-- A store keeps the canonical form. -/
theorem Memory.wf_set {font : Vector Byte 80} {a : Nat} {b : Byte} (ha : a < 4096) :
    ∀ {m : Memory}, Memory.wf font m → Memory.wf font (Memory.set font m a b)
  | [], _ => by
    simp only [Memory.set]
    split <;> simp_all [Memory.wf]
  | (k, c) :: m, ⟨hs, hv⟩ => by
    have hs' := List.pairwise_cons.1 hs
    have htail : Memory.wf font m := ⟨hs'.2, fun p hp => hv p (by simp [hp])⟩
    simp only [Memory.set]
    split
    · rename_i hak
      split
      · exact ⟨hs, hv⟩
      · rename_i hb
        refine ⟨List.pairwise_cons.2 ⟨?_, hs⟩, ?_⟩
        · intro p hp
          rcases List.mem_cons.1 hp with rfl | hp
          · exact hak
          · exact Nat.lt_trans hak (hs'.1 p hp)
        · intro p hp
          rcases List.mem_cons.1 hp with rfl | hp
          · exact ⟨ha, hb⟩
          · exact hv p hp
    · split
      · rename_i _ hak
        subst hak
        split
        · exact htail
        · rename_i hb
          refine ⟨List.pairwise_cons.2 ⟨fun p hp => hs'.1 p hp, hs'.2⟩, ?_⟩
          intro p hp
          rcases List.mem_cons.1 hp with rfl | hp
          · exact ⟨ha, hb⟩
          · exact hv p (by simp [hp])
      · rename_i h1 h2
        have ih := Memory.wf_set (b := b) ha htail
        refine ⟨List.pairwise_cons.2 ⟨?_, ih.1⟩, ?_⟩
        · intro p hp
          rcases Memory.mem_set hp with ⟨rfl, _⟩ | hp
          · show k < a
            omega
          · exact hs'.1 p hp
        · intro p hp
          rcases List.mem_cons.1 hp with rfl | hp
          · exact hv _ (by simp)
          · exact ih.2 p hp

/-- A read after a store, at the same address and at any other. -/
theorem Memory.get_set {font : Vector Byte 80} {a a' : Nat} {b : Byte} :
    ∀ {m : Memory}, m.Pairwise (fun p q => p.1 < q.1) →
      Memory.get font (Memory.set font m a b) a' = if a' = a then b else Memory.get font m a'
  | [], _ => by
    simp only [Memory.set]
    split <;> rename_i hb
    · by_cases h : a' = a
      · subst h; simp [Memory.get, hb]
      · simp [h, Memory.get]
    · simp [Memory.get]
  | (k, c) :: m, hs => by
    have hs' := List.pairwise_cons.1 hs
    have hne : ∀ x, x ≤ k → Memory.get font m x = Memory.blank font x := fun x hx =>
      Memory.get_eq_blank fun p hp e => by have := hs'.1 p hp; simp at this; omega
    simp only [Memory.set]
    split
    · rename_i hak
      split <;> rename_i hb
      · by_cases h : a' = a
        · subst h
          have : a' ≠ k := by omega
          simp [Memory.get, this, hne a' (by omega), hb]
        · simp [h]
      · by_cases h : a' = a <;> simp [Memory.get, h]
    · split
      · rename_i _ hak
        subst hak
        split <;> rename_i hb
        · by_cases h : a' = a
          · subst h; simp [hne a' (Nat.le_refl _), hb]
          · simp [h, Memory.get]
        · by_cases h : a' = a <;> simp [Memory.get, h]
      · rename_i h1 h2
        have ih := Memory.get_set (font := font) (a := a) (a' := a') (b := b) hs'.2
        by_cases hk : a' = k
        · have : a' ≠ a := by omega
          simp [Memory.get, hk]
          omega
        · simp [Memory.get, hk, ih]

/-- Equal contents in canonical form are equal memories. -/
theorem Memory.ext {font : Vector Byte 80} :
    ∀ {m m' : Memory}, Memory.wf font m → Memory.wf font m' →
      (∀ a, Memory.get font m a = Memory.get font m' a) → m = m'
  | [], [], _, _, _ => rfl
  | [], (k, c) :: m', _, h', he => by
    have := he k
    simp [Memory.get] at this
    exact absurd this.symm (h'.2 (k, c) (by simp)).2
  | (k, c) :: m, [], h, _, he => by
    have := he k
    simp [Memory.get] at this
    exact absurd this (h.2 (k, c) (by simp)).2
  | (k, c) :: m, (k', c') :: m', h, h', he => by
    have hs := List.pairwise_cons.1 h.1
    have hs' := List.pairwise_cons.1 h'.1
    have below : ∀ x, x ≤ k → Memory.get font m x = Memory.blank font x := fun x hx =>
      Memory.get_eq_blank fun p hp e => by have := hs.1 p hp; simp at this; omega
    have below' : ∀ x, x ≤ k' → Memory.get font m' x = Memory.blank font x := fun x hx =>
      Memory.get_eq_blank fun p hp e => by have := hs'.1 p hp; simp at this; omega
    have hc := (h.2 (k, c) (by simp)).2
    have hc' := (h'.2 (k', c') (by simp)).2
    have hk : k = k' := by
      rcases Nat.lt_trichotomy k k' with hlt | heq | hgt
      · have h1 := he k
        have h2 : k ≠ k' := by omega
        simp [Memory.get, h2, below' k (by omega)] at h1
        exact absurd h1 hc
      · exact heq
      · have h1 := he k'
        have h2 : k' ≠ k := by omega
        simp [Memory.get, h2, below k' (by omega)] at h1
        exact absurd h1.symm hc'
    subst hk
    have hcc : c = c' := by simpa [Memory.get] using he k
    subst hcc
    have ht : m = m' := by
      refine Memory.ext ⟨hs.2, fun p hp => h.2 p (by simp [hp])⟩
        ⟨hs'.2, fun p hp => h'.2 p (by simp [hp])⟩ fun a => ?_
      by_cases ha : a = k
      · subst ha; rw [below a (Nat.le_refl _), below' a (Nat.le_refl _)]
      · simpa [Memory.get, ha] using he a
    rw [ht]

theorem Memory.wf_nil (font : Vector Byte 80) : Memory.wf font [] := by simp [Memory.wf]

/-! ## At the state -/

theorem memRead_memWrite {s : State} (h : Memory.wf s.cfg.font s.mem) (addr addr' : Nat) (b : Byte) :
    (s.memWrite addr b).memRead addr' =
      if addr' % 4096 = addr % 4096 then b else s.memRead addr' := by
  simp [State.memWrite, State.memRead, Memory.get_set h.1]

theorem memRead_memWrite_same {s : State} (h : Memory.wf s.cfg.font s.mem) (addr : Nat) (b : Byte) :
    (s.memWrite addr b).memRead addr = b := by simp [memRead_memWrite h]

theorem memRead_memWrite_other {s : State} (h : Memory.wf s.cfg.font s.mem) {addr addr' : Nat}
    (b : Byte) (hne : addr' % 4096 ≠ addr % 4096) :
    (s.memWrite addr b).memRead addr' = s.memRead addr' := by simp [memRead_memWrite h, hne]

theorem memWrite_wf {s : State} (h : Memory.wf s.cfg.font s.mem) (addr : Nat) (b : Byte) :
    Memory.wf s.cfg.font (s.memWrite addr b).mem :=
  Memory.wf_set (Nat.mod_lt _ (by decide)) h

theorem storeBytes_wf :
    ∀ (bs : List Byte) {s : State} (addr : Nat), Memory.wf s.cfg.font s.mem →
      Memory.wf s.cfg.font (s.storeBytes addr bs).mem
  | [], _, _, h => h
  | b :: bs, s, addr, h => storeBytes_wf bs (s := s.memWrite addr b) (addr + 1) (memWrite_wf h addr b)

/-- A read outside the stored bytes sees the old byte. -/
theorem memRead_storeBytes_other :
    ∀ (bs : List Byte) {s : State} (addr addr' : Nat), Memory.wf s.cfg.font s.mem →
      (∀ k, k < bs.length → addr' % 4096 ≠ (addr + k) % 4096) →
      (s.storeBytes addr bs).memRead addr' = s.memRead addr'
  | [], _, _, _, _, _ => rfl
  | b :: bs, s, addr, addr', h, hne => by
    rw [State.storeBytes,
      memRead_storeBytes_other bs (addr + 1) addr' (memWrite_wf h addr b) fun k hk => by
        have := hne (k + 1) (by simpa using hk)
        rwa [show addr + 1 + k = addr + (k + 1) by omega],
      memRead_memWrite_other h b (by simpa using hne 0 (by simp))]

/-- A read of one of the stored bytes sees that byte, as long as the run is not longer than memory. -/
theorem memRead_storeBytes :
    ∀ (bs : List Byte) {s : State} (addr : Nat), Memory.wf s.cfg.font s.mem → bs.length ≤ 4096 →
      ∀ (k : Nat) (hk : k < bs.length), (s.storeBytes addr bs).memRead (addr + k) = bs[k]
  | [], _, _, _, _, k, hk => by simp at hk
  | b :: bs, s, addr, h, hl, 0, _ => by
    simp only [List.length_cons] at hl
    rw [State.storeBytes,
      memRead_storeBytes_other bs (addr + 1) (addr + 0) (memWrite_wf h addr b) fun k hk => by omega]
    simpa using memRead_memWrite_same h addr b
  | b :: bs, s, addr, h, hl, k + 1, hk => by
    rw [State.storeBytes, show addr + (k + 1) = addr + 1 + k by omega]
    exact memRead_storeBytes bs (addr + 1) (memWrite_wf h addr b) (by simp at hl; omega) k
      (by simpa using hk)

theorem readBytes_length (s : State) : ∀ (n addr : Nat), (s.readBytes addr n).length = n
  | 0, _ => rfl
  | n + 1, addr => by simp [State.readBytes, readBytes_length s n]

theorem readBytes_getElem (s : State) :
    ∀ (n addr k : Nat) (hk : k < (s.readBytes addr n).length),
      (s.readBytes addr n)[k] = s.memRead (addr + k)
  | 0, _, k, hk => by simp [State.readBytes] at hk
  | n + 1, addr, 0, _ => by simp [State.readBytes]
  | n + 1, addr, k + 1, hk => by
    simp only [State.readBytes, List.getElem_cons_succ]
    rw [readBytes_getElem s n (addr + 1) k, show addr + 1 + k = addr + (k + 1) by omega]

/-- A read depends on its address modulo 4096 alone (20_memory R61). -/
theorem memRead_mod (s : State) (addr : Nat) : s.memRead (addr % 4096) = s.memRead addr := by
  simp [State.memRead]

theorem memRead_congr_mod (s : State) {a b : Nat} (h : a % 4096 = b % 4096) :
    s.memRead a = s.memRead b := by rw [← memRead_mod, h, memRead_mod]

/-- A block store depends on its address modulo 4096 alone (20_memory R61). -/
theorem storeBytes_congr_mod :
    ∀ (bs : List Byte) (s : State) {a b : Nat}, a % 4096 = b % 4096 →
      s.storeBytes a bs = s.storeBytes b bs
  | [], _, _, _, _ => rfl
  | v :: bs, s, a, b, h => by
    rw [State.storeBytes, State.storeBytes,
      show s.memWrite a v = s.memWrite b v by simp [State.memWrite, h],
      storeBytes_congr_mod bs _ (a := a + 1) (b := b + 1) (by omega)]

end Sys2Proof.Machine
end

