-- ==== Sys2Proof/Laws/Operands.lean ====
section
/-! SUPPORT. What the shared operand operations answer, said once: the registers of a block transfer, the
pixels of a sprite and their order, and what toggling a list of pixels does to the grid. -/

namespace Sys2Proof.Machine

/-! ## Block transfers (43_index_memory R225, R226) -/

theorem regsUpTo_length (s : State) (x : RegIdx) : (s.regsUpTo x).length = x.val + 1 := by
  have := x.isLt
  simp [State.regsUpTo]

theorem regsUpTo_getElem (s : State) (x : RegIdx) (k : Nat) (hk : k < (s.regsUpTo x).length) :
    (s.regsUpTo x)[k] = s.readV ⟨k, by rw [regsUpTo_length] at hk; omega⟩ := by
  simp [State.regsUpTo, State.readV]

/-! ## Sprites (44_display_input_timers R252) -/

theorem mem_rowPixels {px py : Nat} {b : Byte} {p : Nat × Nat} :
    p ∈ rowPixels px py b ↔ ∃ c < 8, b.getLsbD (7 - c) = true ∧ p = (px + c, py) := by
  simp only [rowPixels, List.mem_map, List.mem_filter, List.mem_range]
  constructor
  · rintro ⟨c, ⟨h1, h2⟩, rfl⟩
    exact ⟨c, h1, h2, rfl⟩
  · rintro ⟨c, h1, h2, rfl⟩
    exact ⟨c, ⟨h1, h2⟩, rfl⟩

/-- The pixels of a sprite are its set bits, bit 7 leftmost, row `r` being byte `r`. -/
theorem mem_spritePixels {px : Nat} {p : Nat × Nat} :
    ∀ {bs : List Byte} {py : Nat}, p ∈ spritePixels px py bs ↔
      ∃ (r : Nat) (h : r < bs.length), ∃ c < 8, bs[r].getLsbD (7 - c) = true ∧ p = (px + c, py + r)
  | [], _ => by simp [spritePixels]
  | b :: bs, py => by
    rw [spritePixels, List.mem_append, mem_rowPixels, mem_spritePixels]
    constructor
    · rintro (⟨c, hc, hb, rfl⟩ | ⟨r, hr, c, hc, hb, rfl⟩)
      · exact ⟨0, by simp, c, hc, hb, rfl⟩
      · exact ⟨r + 1, by simpa using hr, c, hc, by simpa using hb, by simp; omega⟩
    · rintro ⟨r, hr, c, hc, hb, rfl⟩
      cases r with
      | zero => exact .inl ⟨c, hc, hb, rfl⟩
      | succ r => exact .inr ⟨r, by simpa using hr, c, hc, by simpa using hb, by simp; omega⟩

/-- Row before row, and in a row left to right. -/
theorem spritePixels_pairwise (px : Nat) :
    ∀ (bs : List Byte) (py : Nat),
      (spritePixels px py bs).Pairwise (fun p q => p.2 < q.2 ∨ p.2 = q.2 ∧ p.1 < q.1)
  | [], _ => List.Pairwise.nil
  | b :: bs, py => by
    rw [spritePixels, List.pairwise_append]
    refine ⟨?_, spritePixels_pairwise px bs (py + 1), ?_⟩
    · rw [rowPixels, List.pairwise_map]
      exact (List.pairwise_lt_range.filter _).imp fun h => .inr ⟨rfl, by omega⟩
    · intro p hp q hq
      obtain ⟨c, _, _, rfl⟩ := mem_rowPixels.1 hp
      obtain ⟨r, _, d, _, _, rfl⟩ := mem_spritePixels.1 hq
      exact .inl (by simp; omega)

/-- The pixels of `Dxyn`, by the bytes at I. -/
theorem mem_drawPixels {s : State} {x y : RegIdx} {n : Nibble} {p : Nat × Nat} :
    p ∈ s.drawPixels x y n ↔ ∃ r < n.toNat, ∃ c < 8,
      (s.memRead (s.I.toNat + r)).getLsbD (7 - c) = true ∧
      p = ((s.readV x).toNat + c, (s.readV y).toNat + r) := by
  rw [State.drawPixels, mem_spritePixels]
  constructor
  · rintro ⟨r, hr, c, hc, hb, rfl⟩
    rw [readBytes_getElem] at hb
    exact ⟨r, by rwa [readBytes_length] at hr, c, hc, hb, rfl⟩
  · rintro ⟨r, hr, c, hc, hb, rfl⟩
    exact ⟨r, by rwa [readBytes_length], c, hc, by rwa [readBytes_getElem], rfl⟩

/-! ## Toggling a list of pixels (10_state R42) -/

/-- Toggles keep the canonical form of the grid. -/
theorem togglePixels_wf {s : State} (hw : 0 < s.cfg.fbWidth) (hh : 0 < s.cfg.fbHeight) :
    ∀ (ps : List (Nat × Nat)), Framebuffer.wf s.cfg s.fb →
      Framebuffer.wf s.cfg (s.togglePixels ps).2.fb := by
  intro ps h
  rw [togglePixels_eq]
  show Framebuffer.wf s.cfg (ps.foldl _ s.fb)
  generalize s.fb = fb at h
  induction ps generalizing fb with
  | nil => exact h
  | cons p ps ih => exact ih _ (Framebuffer.wf_toggle hw hh h p.1 p.2)

/-- One toggle flips the pixel it names and no other (R42). -/
theorem pixelOn_togglePixel {s : State} (hw : 0 < s.cfg.fbWidth) (h : Framebuffer.wf s.cfg s.fb)
    (qx qy px py : Nat) :
    (s.togglePixel qx qy).pixelOn px py = (s.pixelOn px py != decide
      (qx % s.cfg.fbWidth = px % s.cfg.fbWidth ∧ qy % s.cfg.fbHeight = py % s.cfg.fbHeight)) := by
  have := pixelKey_eq_iff (c := s.cfg) hw px py qx qy
  simp only [State.pixelOn, State.togglePixel, Framebuffer.mem_toggle h.1, this]
  by_cases h1 : px % s.cfg.fbWidth = qx % s.cfg.fbWidth <;>
    by_cases h2 : py % s.cfg.fbHeight = qy % s.cfg.fbHeight <;>
    simp [h1, h2, eq_comm (a := qx % s.cfg.fbWidth), eq_comm (a := qy % s.cfg.fbHeight)]

/-- One more flip is one more in the parity of the flips. -/
theorem flip_parity (b : Bool) (n : Nat) (p : Prop) [Decidable p] :
    ((b != decide p) != decide (n % 2 = 1)) =
      (b != decide ((n + if p then 1 else 0) % 2 = 1)) := by
  by_cases hp : p <;> rcases Nat.mod_two_eq_zero_or_one n with h | h <;> simp [hp, h, Nat.add_mod]

/-- After toggling a list, a pixel is flipped exactly when an odd number of the calls name it. -/
theorem pixelOn_togglePixels (px py : Nat) : ∀ (ps : List (Nat × Nat)) {s : State},
    0 < s.cfg.fbWidth → 0 < s.cfg.fbHeight → Framebuffer.wf s.cfg s.fb →
    (s.togglePixels ps).2.pixelOn px py = (s.pixelOn px py != decide ((ps.countP fun p =>
      p.1 % s.cfg.fbWidth = px % s.cfg.fbWidth ∧
      p.2 % s.cfg.fbHeight = py % s.cfg.fbHeight) % 2 = 1))
  | [], s, _, _, _ => by simp [State.togglePixels]
  | p :: ps, s, hw, hh, h => by
    have ih := pixelOn_togglePixels px py ps (s := s.togglePixel p.1 p.2) hw hh
      (Framebuffer.wf_toggle hw hh h p.1 p.2)
    rw [State.togglePixels]
    show ((s.togglePixel p.1 p.2).togglePixels ps).2.pixelOn px py = _
    rw [ih, pixelOn_togglePixel hw h, List.countP_cons]
    simp only [togglePixel_cfg, decide_eq_true_eq]
    exact flip_parity _ _ _

/-- The answer is true exactly when some call met a pixel that was on at that moment. -/
theorem togglePixels_hit : ∀ (ps : List (Nat × Nat)) (s : State),
    (s.togglePixels ps).1 = true ↔ ∃ before p after, ps = before ++ p :: after ∧
      (s.togglePixels before).2.pixelOn p.1 p.2 = true
  | [], s => by simp [State.togglePixels]
  | p :: ps, s => by
    rw [State.togglePixels, Bool.or_eq_true, togglePixels_hit ps]
    constructor
    · rintro (h | ⟨before, q, after, rfl, h⟩)
      · exact ⟨[], p, ps, rfl, h⟩
      · exact ⟨p :: before, q, after, rfl, h⟩
    · rintro ⟨before, q, after, he, h⟩
      cases before with
      | nil => cases he; exact .inl h
      | cons r rs => cases he; exact .inr ⟨rs, q, after, rfl, h⟩

end Sys2Proof.Machine
end

