-- ==== Sys2Proof/Laws/PerInstr.lean ====
section
/-! SUPPORT. Per instruction: the word of an instruction matches the row of R96 with its mnemonic. -/

namespace Sys2Proof.Laws.MatchesRow

/-- The word of `i` matches the row of 30_encoding R96 that has the mnemonic of `i`. -/
def Statement (i : Instr) : Prop :=
  ∃ r ∈ tableRows, r.mnemonic = mnemonicOf i ∧ r.matchesWord (encode i)

/-- A row with mask 0xF000, by the family of the word. -/
theorem of_F000 {i : Instr} (m : String) (t : Nibble)
    (hr : (⟨m, encXYN t 0 0 0, 0xF000⟩ : TableRow) ∈ tableRows) (hm : m = mnemonicOf i)
    (ht : fieldT (encode i) = t) : Statement i :=
  ⟨_, hr, hm, by rw [TableRow.matchesWord, mask_F000, ht]⟩

/-- A row with mask 0xF00F, by the family and the low nibble. -/
theorem of_F00F {i : Instr} (m : String) (t n : Nibble)
    (hr : (⟨m, encXYN t 0 0 n, 0xF00F⟩ : TableRow) ∈ tableRows) (hm : m = mnemonicOf i)
    (ht : fieldT (encode i) = t) (hn : fieldN (encode i) = n) : Statement i :=
  ⟨_, hr, hm, by rw [TableRow.matchesWord, mask_F00F, ht, hn]⟩

/-- A row with mask 0xF0FF, by the family and the low byte. -/
theorem of_F0FF {i : Instr} (m : String) (t : Nibble) (kk : Byte)
    (hr : (⟨m, encXKK t 0 kk, 0xF0FF⟩ : TableRow) ∈ tableRows) (hm : m = mnemonicOf i)
    (ht : fieldT (encode i) = t) (hk : fieldKk (encode i) = kk) : Statement i := by
  refine ⟨_, hr, hm, ?_⟩
  have h2 := (fieldKk_eq_iff (encode i) kk).1 hk
  rw [TableRow.matchesWord, mask_F0FF, ht]
  refine BitVec.eq_of_toNat_eq ?_
  rw [encXYN_toNat, encXKK_toNat, h2.1, h2.2]
  show _ + 0 * 256 + _ + _ = _ + 0 * 256 + _
  omega

theorem cls : Statement .cls :=
  ⟨⟨"CLS", 0x00E0, 0xFFFF⟩, by decide, rfl, by decide⟩

theorem ret : Statement .ret :=
  ⟨⟨"RET", 0x00EE, 0xFFFF⟩, by decide, rfl, by decide⟩

theorem jp (nnn : Addr) : Statement (.jp nnn) :=
  of_F000 "JP" 0x1 (by decide) rfl (by simp [encode])

theorem call (nnn : Addr) : Statement (.call nnn) :=
  of_F000 "CALL" 0x2 (by decide) rfl (by simp [encode])

theorem seImm (x : RegIdx) (kk : Byte) : Statement (.seImm x kk) :=
  of_F000 "SE_IMM" 0x3 (by decide) rfl (by simp [encode])

theorem sneImm (x : RegIdx) (kk : Byte) : Statement (.sneImm x kk) :=
  of_F000 "SNE_IMM" 0x4 (by decide) rfl (by simp [encode])

theorem seReg (x y : RegIdx) : Statement (.seReg x y) :=
  of_F00F "SE_REG" 0x5 0x0 (by decide) rfl (by simp [encode]) (by simp [encode])

theorem ldImm (x : RegIdx) (kk : Byte) : Statement (.ldImm x kk) :=
  of_F000 "LD_IMM" 0x6 (by decide) rfl (by simp [encode])

theorem addImm (x : RegIdx) (kk : Byte) : Statement (.addImm x kk) :=
  of_F000 "ADD_IMM" 0x7 (by decide) rfl (by simp [encode])

theorem ldReg (x y : RegIdx) : Statement (.ldReg x y) :=
  of_F00F "LD_REG" 0x8 0x0 (by decide) rfl (by simp [encode]) (by simp [encode])

theorem orReg (x y : RegIdx) : Statement (.orReg x y) :=
  of_F00F "OR" 0x8 0x1 (by decide) rfl (by simp [encode]) (by simp [encode])

theorem andReg (x y : RegIdx) : Statement (.andReg x y) :=
  of_F00F "AND" 0x8 0x2 (by decide) rfl (by simp [encode]) (by simp [encode])

theorem xorReg (x y : RegIdx) : Statement (.xorReg x y) :=
  of_F00F "XOR" 0x8 0x3 (by decide) rfl (by simp [encode]) (by simp [encode])

theorem addReg (x y : RegIdx) : Statement (.addReg x y) :=
  of_F00F "ADD_REG" 0x8 0x4 (by decide) rfl (by simp [encode]) (by simp [encode])

theorem sub (x y : RegIdx) : Statement (.sub x y) :=
  of_F00F "SUB" 0x8 0x5 (by decide) rfl (by simp [encode]) (by simp [encode])

theorem shr (x y : RegIdx) : Statement (.shr x y) :=
  of_F00F "SHR" 0x8 0x6 (by decide) rfl (by simp [encode]) (by simp [encode])

theorem subn (x y : RegIdx) : Statement (.subn x y) :=
  of_F00F "SUBN" 0x8 0x7 (by decide) rfl (by simp [encode]) (by simp [encode])

theorem shl (x y : RegIdx) : Statement (.shl x y) :=
  of_F00F "SHL" 0x8 0xe (by decide) rfl (by simp [encode]) (by simp [encode])

theorem sneReg (x y : RegIdx) : Statement (.sneReg x y) :=
  of_F00F "SNE_REG" 0x9 0x0 (by decide) rfl (by simp [encode]) (by simp [encode])

theorem ldI (nnn : Addr) : Statement (.ldI nnn) :=
  of_F000 "LD_I" 0xa (by decide) rfl (by simp [encode])

theorem jpV0 (nnn : Addr) : Statement (.jpV0 nnn) :=
  of_F000 "JP_V0" 0xb (by decide) rfl (by simp [encode])

theorem rnd (x : RegIdx) (kk : Byte) : Statement (.rnd x kk) :=
  of_F000 "RND" 0xc (by decide) rfl (by simp [encode])

theorem drw (x y : RegIdx) (n : Nibble) : Statement (.drw x y n) :=
  of_F000 "DRW" 0xd (by decide) rfl (by simp [encode])

theorem skp (x : RegIdx) : Statement (.skp x) :=
  of_F0FF "SKP" 0xe 0x9e (by decide) rfl (by simp [encode]) (by simp [encode])

theorem sknp (x : RegIdx) : Statement (.sknp x) :=
  of_F0FF "SKNP" 0xe 0xa1 (by decide) rfl (by simp [encode]) (by simp [encode])

theorem ldVxDt (x : RegIdx) : Statement (.ldVxDt x) :=
  of_F0FF "LD_VX_DT" 0xf 0x7 (by decide) rfl (by simp [encode]) (by simp [encode])

theorem ldVxK (x : RegIdx) : Statement (.ldVxK x) :=
  of_F0FF "LD_VX_K" 0xf 0xa (by decide) rfl (by simp [encode]) (by simp [encode])

theorem ldDtVx (x : RegIdx) : Statement (.ldDtVx x) :=
  of_F0FF "LD_DT_VX" 0xf 0x15 (by decide) rfl (by simp [encode]) (by simp [encode])

theorem ldStVx (x : RegIdx) : Statement (.ldStVx x) :=
  of_F0FF "LD_ST_VX" 0xf 0x18 (by decide) rfl (by simp [encode]) (by simp [encode])

theorem addIVx (x : RegIdx) : Statement (.addIVx x) :=
  of_F0FF "ADD_I_VX" 0xf 0x1e (by decide) rfl (by simp [encode]) (by simp [encode])

theorem ldFVx (x : RegIdx) : Statement (.ldFVx x) :=
  of_F0FF "LD_F_VX" 0xf 0x29 (by decide) rfl (by simp [encode]) (by simp [encode])

theorem ldBVx (x : RegIdx) : Statement (.ldBVx x) :=
  of_F0FF "LD_B_VX" 0xf 0x33 (by decide) rfl (by simp [encode]) (by simp [encode])

theorem ldMemVx (x : RegIdx) : Statement (.ldMemVx x) :=
  of_F0FF "LD_MEM_VX" 0xf 0x55 (by decide) rfl (by simp [encode]) (by simp [encode])

theorem ldVxMem (x : RegIdx) : Statement (.ldVxMem x) :=
  of_F0FF "LD_VX_MEM" 0xf 0x65 (by decide) rfl (by simp [encode]) (by simp [encode])

end Sys2Proof.Laws.MatchesRow
end

