-- ==== Sys2Proof/Laws/Step.lean ====
section
/-! SUPPORT. What one step can do (40_cycle R120, R125, R130): the inversion of `step`, said once, and the
small equations of the cycle's operations. -/

namespace Sys2Proof.Machine

variable (s : State) (k : Nat)

/-! ## The advance and the prepared state -/

theorem advance_eq : s.advance k = { s with PC := s.PC + 2, ctl := .inFrame (k + 1) } := rfl

theorem prepared_eq (i : Instr) :
    s.prepared k i = { s with
      PC := s.PC + 2
      ctl := .inFrame (k + 1)
      written := (regsWritten i).foldl Written.mark s.written } := rfl

/-- With the default `INIT_REGS` no register is unwritten (00_scope R7). -/
theorem unwrittenOf_zero {s : State} (h : s.cfg.initRegs = .zero) (rs : List Reg) :
    s.unwrittenOf rs = none := by simp [State.unwrittenOf, h]

/-! ## The end of a running frame -/

theorem syncTone_of_zero {s : State} (h : s.ST = 0) : s.syncTone = s.toneStop := if_pos h

theorem syncTone_of_ne {s : State} (h : s.ST ≠ 0) : s.syncTone = s.toneStart := if_neg h

/-- A timer's tick is the decrement that stops at zero (40_cycle R131, 60_exceptions R287). -/
theorem tickTimer_toNat (t : Byte) : (tickTimer t).toNat = t.toNat - 1 := by
  unfold tickTimer
  split
  · rename_i h
    simp [h]
  · rename_i h
    have h0 : t.toNat ≠ 0 := fun e => h (BitVec.eq_of_toNat_eq e)
    have := t.isLt
    rw [BitVec.toNat_sub]
    simp
    omega

theorem endRunning_of_silent {s : State} (h : (tickTimer s.ST) = 0) :
    s.endRunning = { s with
      DT := tickTimer s.DT
      ST := tickTimer s.ST
      tone := none
      outputs := s.outputs ++ [.toneStop, .fbPresent s.fb] } := by
  rw [State.endRunning, syncTone_of_zero (s := s.tick) h]
  simp [State.tick, State.toneStop, State.present, State.emit]

theorem endRunning_of_sounding {s : State} (h : (tickTimer s.ST) ≠ 0) :
    s.endRunning = { s with
      DT := tickTimer s.DT
      ST := tickTimer s.ST
      tone := some s.cfg.toneFreq
      outputs := s.outputs ++ [.toneStart s.cfg.toneFreq, .fbPresent s.fb] } := by
  rw [State.endRunning, syncTone_of_ne (s := s.tick) h]
  simp [State.tick, State.toneStart, State.present, State.emit]

theorem endFrame_of_running {s : State} (h : s.run = .running) :
    s.endFrame = { s.endRunning with ctl := .idle } := if_pos h

theorem endFrame_of_paused {s : State} (h : s.run ≠ .running) :
    s.endFrame = { s with ctl := .idle } := if_neg h

/-! ## Step -/

/-- Everything a step that answers a next state can have done. -/
theorem step_cases {s t : State} (h : step s = .next t) :
    (s.ctl = .idle ∧ t = s.acceptNext) ∨
    (∃ k i, s.ctl = .inFrame k ∧ s.run = .running ∧ k < s.cfg.speed ∧
      decode s.fetchWord = .ok i ∧ exec i (s.prepared k i) = .next t) ∨
    (∃ k e, s.ctl = .inFrame k ∧ s.run = .running ∧ k < s.cfg.speed ∧
      decode s.fetchWord = .error e ∧
      t = (s.advance k).raiseFault .unknownOpcode s.fetchWord s.PC) ∨
    (∃ k, s.ctl = .inFrame k ∧ ¬(s.run = .running ∧ k < s.cfg.speed) ∧
      t = { s with ctl := .frameEnd }) ∨
    (s.ctl = .frameEnd ∧ s.run = .running ∧ t = { s.endRunning with ctl := .idle }) ∨
    (s.ctl = .frameEnd ∧ s.run ≠ .running ∧ t = { s with ctl := .idle }) := by
  unfold step at h
  split at h
  · rename_i hc
    cases h
    exact .inl ⟨hc, rfl⟩
  · rename_i k hc
    split at h
    · rename_i hr
      unfold instrStep at h
      split at h
      · rename_i e hd
        cases h
        exact .inr (.inr (.inl ⟨k, e, hc, hr.1, hr.2, hd, rfl⟩))
      · rename_i i hd
        exact .inr (.inl ⟨k, i, hc, hr.1, hr.2, hd, h⟩)
    · rename_i hr
      cases h
      exact .inr (.inr (.inr (.inl ⟨k, hc, hr, rfl⟩)))
  · rename_i hc
    cases h
    by_cases hr : s.run = .running
    · exact .inr (.inr (.inr (.inr (.inl ⟨hc, hr, endFrame_of_running hr⟩))))
    · exact .inr (.inr (.inr (.inr (.inr ⟨hc, hr, endFrame_of_paused hr⟩))))

theorem step_idle {s : State} (h : s.ctl = .idle) : step s = .next s.acceptNext := by
  simp [step, h]

theorem acceptNext_cons {s : State} {t : Input} {rest : List Input} (h : s.inputs = t :: rest) :
    s.acceptNext = { s with inputs := rest }.accept t := by simp [State.acceptNext, h]

theorem step_instr {s : State} {k : Nat} (hc : s.ctl = .inFrame k) (hr : s.run = .running)
    (hk : k < s.cfg.speed) : step s = instrStep k s := by simp [step, hc, hr, hk]

theorem step_leave {s : State} {k : Nat} (hc : s.ctl = .inFrame k)
    (h : ¬(s.run = .running ∧ k < s.cfg.speed)) : step s = .next { s with ctl := .frameEnd } := by
  simp [step, hc, h]

theorem step_frameEnd {s : State} (h : s.ctl = .frameEnd) : step s = .next s.endFrame := by
  simp [step, h]

/-- `n + 1` steps are one step and then `n`. -/
theorem run_succ (n : Nat) {s t : State} (h : step s = .next t) :
    Host.Core.run core (n + 1) s = Host.Core.run core n t := by
  have h' : core.step s = .next t := h
  simp only [Host.Core.run, h']

end Sys2Proof.Machine
end

