-- ==== Sys2Proof/Tests/Slice0.lean ====
section
/-! SUPPORT. Small tests: each check of WellFormed refuses an ill-formed term, one word per constructor
written out bit by bit from 30_encoding R92 and R96, single steps from the vectors of
95_test_vectors, and a witness for the hypotheses of every statement that has some. -/

namespace Sys2Proof.Tests
open Sys2Proof Sys2Proof.Machine

/-! ## WellFormed refuses (00_scope R7, D12) -/

/-- A well-formed configuration whose tone frequency is a number. -/
def cfg : Config := { Config.default with toneFreq := 440 }

theorem test_wf_accepts : cfg.WellFormed := by
  refine ⟨by decide, by decide, ?_⟩
  simp [Config.toneOk, cfg]

theorem test_wf_refuses_no_columns : ¬ { cfg with fbWidth := 0 }.WellFormed := fun h =>
  absurd h.1 (by decide)

theorem test_wf_refuses_no_rows : ¬ { cfg with fbHeight := 0 }.WellFormed := fun h =>
  absurd h.2.1 (by decide)

theorem test_wf_refuses_silent_tone : ¬ { cfg with toneFreq := 0 }.WellFormed := fun h =>
  absurd h.2.2 (by simp [Config.toneOk])

/-! ## Decoding: one word per row of R96, fields in binary -/

theorem test_decode_flow :
    decode 0b0000_0000_1110_1110 = .ok .ret ∧
    decode 0b0001_0010_0011_0100 = .ok (.jp 0x234) ∧
    decode 0b0010_0011_0000_0000 = .ok (.call 0x300) ∧
    decode 0b0011_0011_0001_0010 = .ok (.seImm 3 0x12) ∧
    decode 0b0100_0011_0001_0011 = .ok (.sneImm 3 0x13) ∧
    decode 0b0101_0001_0010_0000 = .ok (.seReg 1 2) ∧
    decode 0b1001_0001_0010_0000 = .ok (.sneReg 1 2) ∧
    decode 0b1011_1111_1111_1111 = .ok (.jpV0 0xFFF) := by decide

theorem test_decode_alu :
    decode 0b0110_0000_0000_0101 = .ok (.ldImm 0 0x05) ∧
    decode 0b0111_1111_0000_0001 = .ok (.addImm 15 0x01) ∧
    decode 0b1000_0001_0010_0000 = .ok (.ldReg 1 2) ∧
    decode 0b1000_0001_0010_0001 = .ok (.orReg 1 2) ∧
    decode 0b1000_0001_0010_0010 = .ok (.andReg 1 2) ∧
    decode 0b1000_0001_0010_0011 = .ok (.xorReg 1 2) ∧
    decode 0b1000_1111_0001_0100 = .ok (.addReg 15 1) ∧
    decode 0b1000_0001_1111_0101 = .ok (.sub 1 15) ∧
    decode 0b1000_0001_1010_0110 = .ok (.shr 1 10) ∧
    decode 0b1000_0001_0010_0111 = .ok (.subn 1 2) ∧
    decode 0b1000_0001_1010_1110 = .ok (.shl 1 10) ∧
    decode 0b1100_0001_0000_1111 = .ok (.rnd 1 0x0F) := by decide

theorem test_decode_index_memory :
    decode 0b1010_0010_1111_0000 = .ok (.ldI 0x2F0) ∧
    decode 0b1111_0010_0001_1110 = .ok (.addIVx 2) ∧
    decode 0b1111_0001_0010_1001 = .ok (.ldFVx 1) ∧
    decode 0b1111_0001_0011_0011 = .ok (.ldBVx 1) ∧
    decode 0b1111_1111_0101_0101 = .ok (.ldMemVx 15) ∧
    decode 0b1111_0010_0110_0101 = .ok (.ldVxMem 2) := by decide

theorem test_decode_display :
    decode 0b0000_0000_1110_0000 = .ok .cls ∧
    decode 0b1101_0000_0001_0101 = .ok (.drw 0 1 5) ∧
    decode 0b1110_0001_1001_1110 = .ok (.skp 1) ∧
    decode 0b1110_0001_1010_0001 = .ok (.sknp 1) ∧
    decode 0b1111_0011_0000_0111 = .ok (.ldVxDt 3) ∧
    decode 0b1111_0011_0000_1010 = .ok (.ldVxK 3) ∧
    decode 0b1111_0010_0001_0101 = .ok (.ldDtVx 2) ∧
    decode 0b1111_0010_0001_1000 = .ok (.ldStVx 2) := by decide

/-- Illegal words of each family, the nearest ones included (R98). -/
theorem test_decode_illegal :
    ([0x0000, 0x0123, 0x00E1, 0x00EF, 0x5121, 0x8008, 0x800D, 0x800F, 0x9121, 0xE09F, 0xE0FF,
      0xF000, 0xF066, 0xF0FF] : List Word).all (fun op => decode op = .error (.unknown op)) = true := by
  decide

/-- The first byte is the high one, and one byte alone is no instruction (R62, R90). -/
theorem test_decode_bytes :
    decodeBytes [0x12, 0x34] = .ok (.jp 0x234, []) ∧ decodeBytes [0x12] = .error .truncated ∧
    decodeTableWord 16 0xF265 = some (.ldVxMem 2) := by decide

/-! ## Single steps (95_test_vectors section 2) -/

/-- The creation state with the instruction address of the vectors. -/
def at300 : State := { State.reset with PC := 0x300 }

/-- The creation state at another instruction address. -/
def atAddr (a : Word) : State := { State.reset with PC := a }

/-- One field after one step that runs a word. -/
def after {α : Type} (w : Nat) (s : State) (f : State → α) : Option α :=
  match step (s.withFetchWord 16 w) with
  | .next t => some (f t)
  | _ => none

/-- V[x] and VF. -/
def vAndF (x : RegIdx) (s : State) : Byte × Byte := (s.readV x, s.readV vF)

/-- A state with V1, V2 and VF set. -/
def v12F (v1 v2 f : Byte) : State := ((at300.writeV 1 v1).writeV 2 v2).writeV vF f

theorem test_ret : after 0x00EE { at300 with stack := [0x204] } (fun t => (t.PC, t.stack)) =
    some (0x204, []) := by decide

theorem test_ret_underflow : after 0x00EE at300 (fun t => (t.fault, t.PC, t.run)) =
    some (some ⟨.stackUnderflow, 0x00EE, 0x300⟩, 0x302, .halted) := by decide

theorem test_jp : after 0x1FFF at300 (·.PC) = some 0xFFF := by decide

theorem test_call : after 0x2300 (atAddr 0x202) (fun t => (t.PC, t.stack)) =
    some (0x300, [0x204]) := by decide

theorem test_call_overflow : after 0x2400 { atAddr 0x200 with stack := List.replicate 16 0x202 }
    (fun t => (t.fault, t.PC, t.stack.length)) =
    some (some ⟨.stackOverflow, 0x2400, 0x200⟩, 0x202, 16) := by decide

theorem test_seImm : after 0x3312 ((atAddr 0x200).writeV 3 0x12) (·.PC) = some 0x204 ∧
    after 0x3313 ((atAddr 0x200).writeV 3 0x12) (·.PC) = some 0x202 := by decide

theorem test_seImm_top : after 0x3000 (atAddr 0xFFE) (·.PC) = some 0x1002 := by decide

theorem test_sneImm : after 0x4312 ((atAddr 0x200).writeV 3 0x12) (·.PC) = some 0x202 ∧
    after 0x4313 ((atAddr 0x200).writeV 3 0x12) (·.PC) = some 0x204 := by decide

theorem test_seReg : after 0x5120 (v12F 7 7 0) (·.PC) = some 0x304 ∧
    after 0x5120 (v12F 7 8 0) (·.PC) = some 0x302 := by decide

theorem test_sneReg : after 0x9120 (v12F 7 8 0) (·.PC) = some 0x304 ∧
    after 0x9110 (v12F 7 8 0) (·.PC) = some 0x302 := by decide

theorem test_jpV0 : after 0xBFFF (at300.writeV 0 0xFF) (·.PC) = some 0x10FE := by decide

theorem test_ldImm : after 0x6005 at300 (fun t => (t.readV 0, t.PC)) = some (0x05, 0x302) := by decide

theorem test_addImm : after 0x70FF ((v12F 0 0 0x55).writeV 0 1) (vAndF 0) = some (0x00, 0x55) := by
  decide

theorem test_addImm_vF : after 0x7F01 (v12F 0 0 0xFF) (·.readV vF) = some 0x00 := by decide

theorem test_ldReg : after 0x8120 (v12F 0 0x33 0) (vAndF 1) = some (0x33, 0x00) := by decide

theorem test_orReg : after 0x8121 (v12F 0x0F 0xF0 0x55) (vAndF 1) = some (0xFF, 0x55) := by decide

theorem test_andReg : after 0x8122 (v12F 0x3C 0x0F 0x55) (vAndF 1) = some (0x0C, 0x55) := by decide

theorem test_xorReg : after 0x8123 (v12F 0xFF 0x0F 0x55) (vAndF 1) = some (0xF0, 0x55) := by decide

theorem test_addReg : after 0x8124 (v12F 0xFF 0x01 0) (vAndF 1) = some (0x00, 0x01) ∧
    after 0x8124 (v12F 0xFF 0x00 0) (vAndF 1) = some (0xFF, 0x00) := by decide

theorem test_addReg_vF : after 0x8F14 (v12F 0xFF 0 0x05) (·.readV vF) = some 0x01 ∧
    after 0x81F4 (v12F 0x05 0 0xFF) (vAndF 1) = some (0x04, 0x01) := by decide

theorem test_sub : after 0x8125 (v12F 3 5 0) (vAndF 1) = some (0xFE, 0x00) ∧
    after 0x8125 (v12F 4 4 0) (vAndF 1) = some (0x00, 0x00) := by decide

theorem test_sub_vF : after 0x8F15 (v12F 3 0 9) (·.readV vF) = some 0xFE ∧
    after 0x81F5 (v12F 9 0 3) (vAndF 1) = some (0x08, 0x01) ∧
    after 0x8FF5 (v12F 0 0 7) (·.readV vF) = some 0x00 := by decide

theorem test_shr : after 0x81A6 ((v12F 0x80 0 0).writeV 10 0x33) (vAndF 1) = some (0x40, 0x00) ∧
    after 0x8106 (v12F 0x05 0 0) (vAndF 1) = some (0x02, 0x01) := by decide

theorem test_shr_vF : after 0x8F06 (v12F 0 0 0xFF) (·.readV vF) = some 0x00 := by decide

theorem test_subn : after 0x8127 (v12F 3 5 0) (vAndF 1) = some (0x02, 0x01) ∧
    after 0x8127 (v12F 5 3 0) (vAndF 1) = some (0xFE, 0x00) := by decide

theorem test_subn_vF : after 0x8F17 (v12F 9 0 3) (·.readV vF) = some 0x08 ∧
    after 0x81F7 (v12F 3 0 9) (vAndF 1) = some (0xFE, 0x01) ∧
    after 0x8FF7 (v12F 0 0 7) (·.readV vF) = some 0x00 := by decide

theorem test_shl : after 0x810E (v12F 0x81 0 0) (vAndF 1) = some (0x02, 0x80) ∧
    after 0x810E (v12F 0x7F 0 0) (vAndF 1) = some (0xFE, 0x00) := by decide

theorem test_shl_vF : after 0x8F0E (v12F 0 0 0xFF) (·.readV vF) = some 0x00 := by decide

theorem test_rnd : after 0xC10F { at300 with draws := [0xA7, 0x11] } (fun t => (t.readV 1, t.draws)) =
    some (0x07, [0x11]) := by decide

theorem test_rnd_free : after 0xC100 at300 (fun t => (t.draws, t.drawCount)) = some ([], 1) := by decide

theorem test_ldI : after 0xA2F0 at300 (·.I) = some 0x2F0 := by decide

theorem test_addIVx : after 0xF11E { v12F 2 0 0x55 with I := 0xFFFF } (fun t => (t.I, t.readV vF)) =
    some (0x0001, 0x55) ∧
    after 0xF11E { v12F 1 0 0 with I := 0x0FFF } (·.I) = some 0x1000 := by decide

theorem test_ldFVx : after 0xF129 (v12F 0x0A 0 0) (·.I) = some 0x32 ∧
    after 0xF129 (v12F 0xFF 0 0) (·.I) = some 0x4FB := by decide

/-- Three bytes of memory. -/
def bytes3 (a b c : Nat) (t : State) : Byte × Byte × Byte := (t.memRead a, t.memRead b, t.memRead c)

theorem test_ldBVx : after 0xF133 { v12F 0xFE 0 0 with I := 0x400 }
    (fun t => (bytes3 0x400 0x401 0x402 t, t.I)) = some ((2, 5, 4), 0x400) := by decide

theorem test_ldBVx_wraps : after 0xF133 { v12F 0x07 0 0 with I := 0xFFE }
    (bytes3 0xFFE 0xFFF 0x000) = some (0, 0, 7) := by decide

theorem test_ldMemVx : after 0xF155 { (v12F 2 3 0).writeV 0 9 with I := 0x400 }
    (fun t => (bytes3 0x400 0x401 0x402 t, t.I)) = some ((9, 2, 0), 0x400) := by decide

theorem test_ldMemVx_wraps : after 0xF255 { (v12F 2 3 0).writeV 0 9 with I := 0xFFF }
    (bytes3 0xFFF 0x000 0x001) = some (9, 2, 3) := by decide

/-- Memory with the bytes 1, 2, 3 at 0x400. -/
def block400 : Memory := [(0x400, 1), (0x401, 2), (0x402, 3)]

theorem test_ldVxMem : after 0xF165 { v12F 0 0x77 0 with I := 0x400, mem := block400 }
    (fun t => (t.readV 0, t.readV 1, t.readV 2, t.I)) = some (1, 2, 0x77, 0x400) := by decide

theorem test_ldVxMem_font : after 0xF265 { at300 with I := 0xFFF, mem := [(0xFFF, 0xAA)] }
    (fun t => (t.readV 0, t.readV 1, t.readV 2)) = some (0xAA, 0xF0, 0x90) := by decide

theorem test_cls : after 0x00E0 { at300 with fb := [0, 7, 2047] } (fun t => (t.fb, t.outputs)) =
    some ([], [.fbClear]) := by decide

/-- A state with one sprite byte at I = 0x400, drawn at (V0, V1). -/
def sprite (b v0 v1 : Byte) : State :=
  { (v12F v1 0 0x05).writeV 0 v0 with I := 0x400, mem := [(0x400, b)] }

/-- Row 31 and columns 62, 63, then 0: the wrap of R42. -/
theorem test_drw_wraps : after 0xD011 (sprite 0xE0 0x3E 0x1F)
    (fun t => (t.fb, t.readV vF, t.pixelOn 62 31, t.pixelOn 1 31)) =
    some ([1984, 2046, 2047], 0, true, false) := by decide

theorem test_drw_collision : after 0xD011 { sprite 0xC0 0 0 with fb := [0] }
    (fun t => (t.fb, t.readV vF)) = some ([1], 1) := by decide

theorem test_skp : after 0xE19E { v12F 5 0 0 with keys := at300.keys.set 5 true } (·.PC) = some 0x304 ∧
    after 0xE19E (v12F 5 0 0) (·.PC) = some 0x302 ∧
    after 0xE19E { v12F 0x15 0 0 with keys := Vector.replicate 16 true } (·.PC) = some 0x302 := by
  decide

theorem test_sknp : after 0xE1A1 { v12F 5 0 0 with keys := at300.keys.set 5 true } (·.PC) =
      some 0x302 ∧
    after 0xE1A1 (v12F 5 0 0) (·.PC) = some 0x304 ∧
    after 0xE1A1 { v12F 0x15 0 0 with keys := Vector.replicate 16 true } (·.PC) = some 0x304 := by
  decide

theorem test_ldVxDt : after 0xF307 { at300 with DT := 0x3C } (·.readV 3) = some 0x3C := by decide

theorem test_ldVxK : after 0xF30A (at300.writeV 3 0x42)
    (fun t => (t.run, t.waitReg, t.PC, t.readV 3)) = some (.waitingForKey, 3, 0x302, 0x42) := by decide

theorem test_ldDtVx : after 0xF215 (v12F 0 0x3C 0) (fun t => (t.DT, t.ST)) = some (0x3C, 0) := by decide

theorem test_ldStVx : after 0xF218 (v12F 0 0x05 0) (fun t => (t.DT, t.ST)) = some (0, 0x05) := by decide

/-! ## Fetch, faults, frames and transactions (95_test_vectors sections 2.1, 2.6, 2.7) -/

/-- One field after one step. -/
def next {α : Type} (s : State) (f : State → α) : Option α :=
  match step s with
  | .next t => some (f t)
  | _ => none

theorem test_fetch_wraps :
    ({ atAddr 0xFFF with mem := [(0xFFF, 0x12)] } : State).fetchWord = 0x12F0 := by decide

theorem test_unknown : after 0x5121 (v12F 7 7 0) (fun t => (t.fault, t.PC, t.run, t.ctl)) =
    some (some ⟨.unknownOpcode, 0x5121, 0x300⟩, 0x302, .halted, .idle) := by decide

theorem test_frameEnd : next { at300 with ctl := .frameEnd, DT := 3, ST := 1, fb := [4] }
    (fun t => (t.DT, t.ST, t.outputs, t.ctl)) = some (2, 0, [.toneStop, .fbPresent [4]], .idle) := by
  decide

theorem test_keyPress : next { at300 with run := .waitingForKey, waitReg := 5, inputs := [.keyPress 7] }
    (fun t => (t.readV 5, t.run, t.keys[7])) = some (7, .running, true) := by decide

theorem test_load : next { at300 with inputs := [.loadProgram [0x12, 0x00, 0x34]] }
    (fun t => (t.mem, t.PC)) = some ([(0x200, 0x12), (0x202, 0x34)], 0x300) := by decide

theorem test_load_empty : next { at300 with inputs := [.loadProgram []] }
    (fun t => (t.mem, t.outputs)) = some ([], [.loadError .empty]) := by decide

theorem test_create : next
    { v12F 1 2 3 with
      inputs := [.create]
      run := .halted
      fb := [1]
      fault := some ⟨.unknownOpcode, 0, 0x300⟩ }
    (fun t => (t.readV 1, t.PC, t.run, t.fault, t.fb)) = some (0, 0x200, .running, none, []) := by decide

/-! ## Witnesses: states and operands that meet the hypotheses of the statements -/

/-- A running block in the middle of a frame. -/
def live : State :=
  { State.reset with
    cfg := cfg
    mem := [(0x200, 0x12), (0x204, 0x34)]
    fb := [0, 5]
    stack := [0x204]
    ctl := .inFrame 3 }

/-- A halted block. -/
def dead : State :=
  { live with run := .halted, fault := some ⟨.unknownOpcode, 0, 0x200⟩, ctl := .idle }

/-- A waiting block. -/
def waiting : State := { live with run := .waitingForKey, waitReg := 5, ctl := .idle }

/-- A block with a given instruction word at PC, in a frame. -/
def about (w : Nat) (s : State) : State := s.withFetchWord 16 w

theorem witness_inv_live : live.Inv where
  cfg := test_wf_accepts
  mem := by decide
  fb := by decide
  stack := fun d h => by cases h; decide
  fault := by decide
  halted := by decide
  budget := fun k h => by cases h; decide
  tone := .inl rfl

theorem witness_inv_dead : dead.Inv where
  cfg := test_wf_accepts
  mem := by decide
  fb := by decide
  stack := fun d h => by cases h; decide
  fault := by decide
  halted := by decide
  budget := fun k h => by cases h
  tone := .inl rfl

theorem witness_LegalWordIsTheEncodingOfItsInstruction :
    decode 0x81A6 = .ok (.shr 1 10) := by decide

theorem witness_DecodeFollowsTheTableRows :
    decode 0x5120 = .ok (.seReg 1 2) ∧ (⟨"SE_REG", 0x5000, 0xF00F⟩ : TableRow) ∈ tableRows ∧
    (⟨"SE_REG", 0x5000, 0xF00F⟩ : TableRow).matchesWord 0x5120 := by decide

theorem witness_RowsAreDisjointAndTheRestIsUnknown :
    ((⟨"SHL", 0x800E, 0xF00F⟩ : TableRow) ∈ tableRows ∧
      (⟨"SHL", 0x800E, 0xF00F⟩ : TableRow).matchesWord 0x81AE) ∧
    ∀ r ∈ tableRows, ¬ r.matchesWord 0x8008 := by decide

theorem witness_StepRunsTheDecodedInstruction :
    ∃ (s : State) (k : Nat) (i : Instr), s.ctl = .inFrame k ∧ s.run = .running ∧ k < s.cfg.speed ∧
      decodeBytes [s.memRead s.PC.toNat, s.memRead (s.PC.toNat + 1)] = .ok (i, []) :=
  ⟨{ about 0x8124 (atAddr 0xFFFF) with ctl := .inFrame 9 }, 9, .addReg 1 2, by decide⟩

theorem witness_UnknownWordHaltsTheBlock :
    ∃ (s : State) (k : Nat) (e : DecodeError), s.ctl = .inFrame k ∧ s.run = .running ∧
      k < s.cfg.speed ∧ decode s.fetchWord = .error e :=
  ⟨about 0xF0FF at300, 0, .unknown 0xF0FF, by decide⟩

theorem witness_FaultingStepChangesNothingElse :
    ∃ s t : State, s.run = .running ∧ step s = .next t ∧ t.run = .halted :=
  ⟨about 0x00EE at300, _, rfl, rfl, rfl⟩

theorem witness_OnlyCreateLeavesHalted :
    ∃ s t : State, s.Inv ∧ s.run = .halted ∧ (∀ rest, s.inputs ≠ .create :: rest) ∧
      step s = .next t :=
  ⟨dead, _, witness_inv_dead, rfl, fun _ h => (nomatch h), rfl⟩

/-- Each of the four transitions happens. -/
theorem witness_RunStateTransitionsAreComplete :
    (∃ s t : State, step s = .next t ∧ s.run = .running ∧ t.run = .waitingForKey) ∧
    (∃ s t : State, step s = .next t ∧ s.run = .waitingForKey ∧ t.run = .running) ∧
    (∃ s t : State, step s = .next t ∧ s.run = .running ∧ t.run = .halted) ∧
    (∃ s t : State, step s = .next t ∧ s.run = .halted ∧ t.run = .running) :=
  ⟨⟨about 0xF30A at300, _, rfl, rfl, rfl⟩,
   ⟨{ waiting with inputs := [.keyPress 15] }, _, rfl, rfl, rfl⟩,
   ⟨about 0x0000 at300, _, rfl, rfl, rfl⟩,
   ⟨{ dead with inputs := [.create] }, _, rfl, rfl, rfl⟩⟩

theorem witness_EveryStepCompletesWithZeroedRegisters : live.cfg.initRegs = .zero := rfl

/-- A block that was created with `INIT_REGS = Unwritten` and has written nothing. -/
def unwritten : State := { at300 with cfg := { cfg with initRegs := .unwritten } }

/-- A read before the first write is no stop. -/
theorem test_unwritten_read_runs : after 0x8124 unwritten (fun t => (t.PC, t.run)) =
    some (0x302, .running) := by decide

/-- An instruction that reads no unwritten register, in a frame of its own. -/
theorem witness_covered : (about 0x6105 unwritten).Covered := by
  refine ⟨fun k i _ _ _ h => ?_, fun h => absurd h (by decide)⟩
  have hd : decode (about 0x6105 unwritten).fetchWord = .ok (.ldImm 1 5) := by decide
  cases h.symm.trans hd
  decide

theorem witness_UnwrittenRegistersHoldFreeValues :
    (∃ (s : State) (rest : List Input), s.cfg.initRegs = .unwritten ∧ s.ctl = .idle ∧
      s.inputs = .create :: rest) ∧
    (∃ s t : State, s.cfg.initRegs = .unwritten ∧ s.Covered ∧ s.written.has (.v 1) = false ∧
      s.written.has .i = false ∧ s.written.has .dt = false ∧ s.written.has .st = false ∧
      step s = .next t) :=
  ⟨⟨{ unwritten with inputs := [.create] }, [], rfl, rfl, rfl⟩,
   ⟨about 0x6105 unwritten, _, rfl, witness_covered, rfl, rfl, rfl, rfl, rfl⟩⟩

theorem witness_FrameEndTicksTonesAndPresents :
    (∃ s : State, s.ctl = .frameEnd ∧ s.run = .running ∧ s.ST = 0) ∧
    (∃ s : State, s.ctl = .frameEnd ∧ s.run = .running ∧ s.ST = 1) ∧
    (∃ s : State, s.ctl = .frameEnd ∧ s.run ≠ .running) :=
  ⟨⟨{ live with ctl := .frameEnd }, by decide⟩, ⟨{ live with ctl := .frameEnd, ST := 1 }, by decide⟩,
   ⟨{ waiting with ctl := .frameEnd }, by decide⟩⟩

theorem witness_KeyWaitBeginsAndEndsTheFrame : live.ctl = .inFrame 3 := rfl

theorem witness_SteppedFrameEqualsAtomicFrame :
    ∃ (s : State) (rest : List Input) (t : State), s.ctl = .idle ∧ s.inputs = .runOneFrame :: rest ∧
      runOneFrame { s with inputs := rest } = .next t :=
  ⟨{ waiting with inputs := [.runOneFrame, .keyPress 0] }, [.keyPress 0], _, rfl, rfl, rfl⟩

theorem witness_FrameWhileWaitingOrHaltedDoesNothing :
    (∃ (s : State) (rest : List Input), s.ctl = .idle ∧ s.inputs = .runOneFrame :: rest ∧
      s.run = .halted) ∧
    (∃ (s : State) (rest : List Input), s.ctl = .idle ∧ s.inputs = .runOneFrame :: rest ∧
      s.run = .waitingForKey) :=
  ⟨⟨{ dead with inputs := [.runOneFrame] }, [], by decide⟩,
   ⟨{ waiting with inputs := [.runOneFrame] }, [], by decide⟩⟩

theorem witness_KeyPressCompletesOnlyAPendingWait :
    (∃ (s : State) (k : Fin 16) (rest : List Input), s.ctl = .idle ∧ s.inputs = .keyPress k :: rest ∧
      s.run = .waitingForKey) ∧
    (∃ (s : State) (k : Fin 16) (rest : List Input), s.ctl = .idle ∧ s.inputs = .keyPress k :: rest ∧
      s.run ≠ .waitingForKey) :=
  ⟨⟨{ waiting with inputs := [.keyPress 15] }, 15, [], by decide⟩,
   ⟨{ dead with inputs := [.keyPress 0] }, 0, [], by decide⟩⟩

theorem witness_EnvironmentActsOnlyBetweenFrames :
    ∃ s t : State, s.ctl ≠ .idle ∧ step s = .next t :=
  ⟨about 0x6005 at300, _, by decide, rfl⟩

theorem witness_CreateResetsTheBlock :
    ∃ (s : State) (rest : List Input), s.ctl = .idle ∧ s.inputs = .create :: rest ∧
      s.cfg.initRegs = .zero :=
  ⟨{ dead with inputs := [.create] }, [], by decide⟩

/-- The smallest and the largest program that R322 loads, and the nearest two it does not. -/
theorem witness_ProgramLoadWritesExactlyItsBytes :
    ∀ n, n = 1 ∨ n = 3584 ∨ n = 0 ∨ n = 3585 → ∃ (s : State) (bytes : List Byte) (rest : List Input),
      Memory.wf s.cfg.font s.mem ∧ s.ctl = .idle ∧ s.inputs = .loadProgram bytes :: rest ∧
      bytes.length = n := fun n _ =>
  ⟨{ dead with inputs := [.loadProgram (List.replicate n 0x12)] }, List.replicate n 0x12, [],
    witness_inv_dead.mem, rfl, rfl, by simp⟩

theorem witness_StepKeepsTheInvariant : ∃ s t : State, s.Inv ∧ step s = .next t :=
  ⟨live, _, witness_inv_live, rfl⟩

theorem witness_ConfigurationIsFixedForLife : ∃ s t : State, step s = .next t :=
  ⟨about 0x00E0 live, _, rfl⟩

theorem witness_OnlyStoresLoadsAndCreateChangeMemory :
    (∃ s t : State, step s = .next t ∧ t.mem ≠ s.mem ∧ decode s.fetchWord = .ok (.ldBVx 1)) ∧
    (∃ s t : State, step s = .next t ∧ t.mem ≠ s.mem ∧ decode s.fetchWord = .ok (.ldMemVx 1)) ∧
    (∃ s t : State, step s = .next t ∧ t.mem ≠ s.mem ∧ s.inputs = [.loadProgram [0x34]]) ∧
    (∃ s t : State, step s = .next t ∧ t.mem ≠ s.mem ∧ s.inputs = [.create]) :=
  ⟨⟨about 0xF133 { v12F 7 0 0 with I := 0x400 }, _, rfl, by decide, by decide⟩,
   ⟨about 0xF155 { v12F 7 0 0 with I := 0x400 }, _, rfl, by decide, by decide⟩,
   ⟨{ dead with inputs := [.loadProgram [0x34]] }, _, rfl, by decide, rfl⟩,
   ⟨{ dead with inputs := [.create] }, _, rfl, by decide, rfl⟩⟩

theorem witness_OnlyCallRetAndCreateChangeTheStack :
    (∃ s t : State, step s = .next t ∧ t.stack ≠ s.stack ∧ decode s.fetchWord = .ok (.call 0x300)) ∧
    (∃ s t : State, step s = .next t ∧ t.stack ≠ s.stack ∧ decode s.fetchWord = .ok .ret) ∧
    (∃ s t : State, step s = .next t ∧ t.stack ≠ s.stack ∧ s.inputs = [.create]) :=
  ⟨⟨about 0x2300 at300, _, rfl, by decide, by decide⟩,
   ⟨about 0x00EE { at300 with stack := [0x204] }, _, rfl, by decide, by decide⟩,
   ⟨{ dead with inputs := [.create] }, _, rfl, by decide, rfl⟩⟩

theorem witness_OnlyClsDrwAndCreateChangeTheGrid :
    (∃ s t : State, step s = .next t ∧ t.fb ≠ s.fb ∧ decode s.fetchWord = .ok .cls) ∧
    (∃ s t : State, step s = .next t ∧ t.fb ≠ s.fb ∧ decode s.fetchWord = .ok (.drw 0 1 1)) ∧
    (∃ s t : State, step s = .next t ∧ t.fb ≠ s.fb ∧ s.inputs = [.create]) :=
  ⟨⟨about 0x00E0 { at300 with fb := [3] }, _, rfl, by decide, by decide⟩,
   ⟨about 0xD011 (sprite 0x80 0 0), _, rfl, by decide, by decide⟩,
   ⟨{ dead with inputs := [.create] }, _, rfl, by decide, rfl⟩⟩

theorem witness_TimersChangeOnlyByLoadsTicksAndCreate :
    (∃ s t : State, step s = .next t ∧ t.DT ≠ s.DT ∧ decode s.fetchWord = .ok (.ldDtVx 2)) ∧
    (∃ s t : State, step s = .next t ∧ t.ST ≠ s.ST ∧ decode s.fetchWord = .ok (.ldStVx 2)) ∧
    (∃ s t : State, step s = .next t ∧ t.DT ≠ s.DT ∧ s.ctl = .frameEnd) ∧
    (∃ s t : State, step s = .next t ∧ t.ST ≠ s.ST ∧ s.inputs = [.create]) :=
  ⟨⟨about 0xF215 (v12F 0 9 0), _, rfl, by decide, by decide⟩,
   ⟨about 0xF218 (v12F 0 9 0), _, rfl, by decide, by decide⟩,
   ⟨{ live with ctl := .frameEnd, DT := 1 }, _, rfl, by decide, rfl⟩,
   ⟨{ dead with inputs := [.create], ST := 1 }, _, rfl, by decide, rfl⟩⟩

/-- A register that is written but not read, and one that is neither. -/
theorem witness_RegisterNotListedAsReadDoesNotMatter :
    ∃ s t : State, exec (.shr 1 2) s = .next t ∧
      Reg.v vF ∉ regsRead (.shr 1 2) ∧ Reg.v vF ∈ regsWritten (.shr 1 2) ∧
      Reg.v 2 ∉ regsRead (.shr 1 2) ∧ Reg.v 2 ∉ regsWritten (.shr 1 2) :=
  ⟨live, _, rfl, by decide⟩

theorem witness_OnlyTheLowTwelveBitsOfIMatter :
    ∃ (s t : State) (j : Word), j ≠ s.I ∧ j.toNat % 4096 = s.I.toNat % 4096 ∧
      exec (.ldMemVx 1) s = .next t :=
  ⟨{ live with I := 0xFFF }, _, 0xFFFF, by decide, by decide, rfl⟩

theorem witness_FlowInstructionsChangeNothingElse :
    (∃ s t : State, familyOf (.call 0x300) = .flow ∧ exec (.call 0x300) s = .next t) ∧
    (∃ s t : State, familyOf .ret = .flow ∧ s.stack = [] ∧ exec .ret s = .next t) :=
  ⟨⟨live, _, rfl, rfl⟩, ⟨at300, _, rfl, rfl, rfl⟩⟩

theorem witness_AluInstructionsChangeNothingElse :
    ∃ s t : State, familyOf (.sub 1 2) = .alu ∧ exec (.sub 1 2) s = .next t := ⟨live, _, rfl, rfl⟩

theorem witness_IndexMemoryInstructionsChangeNothingElse :
    ∃ s t : State, familyOf (.ldMemVx 15) = .indexMemory ∧ Memory.wf s.cfg.font s.mem ∧
      exec (.ldMemVx 15) s = .next t :=
  ⟨live, _, rfl, by decide, rfl⟩

theorem witness_DisplayInstructionsChangeNothingElse :
    ∃ s t : State, familyOf (.drw 0 1 1) = .displayInputTimers ∧ exec (.drw 0 1 1) s = .next t :=
  ⟨live, _, rfl, rfl⟩

/-- A bounded stack with one entry less than its depth, an unbounded one, and a full one. -/
theorem witness_CallPushesTheAdvancedPcOrOverflows :
    (∃ (s : State) (a : Word), s.PC = a + 2 ∧ s.cfg.stackDepth = some 16 ∧ s.stack.length = 15) ∧
    (∃ (s : State) (a : Word), s.PC = a + 2 ∧ s.cfg.stackDepth = none) ∧
    (∃ (s : State) (a : Word), s.PC = a + 2 ∧ s.cfg.stackDepth = some s.stack.length) :=
  ⟨⟨{ atAddr 0x202 with stack := List.replicate 15 0 }, 0x200, by decide⟩,
   ⟨{ atAddr 0x0000 with cfg := { cfg with stackDepth := none } }, 0xFFFE, by decide⟩,
   ⟨{ atAddr 0x202 with stack := List.replicate 16 0 }, 0x200, by decide⟩⟩

theorem witness_RetPopsIntoPcOrUnderflows :
    (∃ (s : State) (a v : Word) (below : List Word), s.PC = a + 2 ∧ s.stack = below ++ [v]) ∧
    (∃ (s : State) (a : Word), s.PC = a + 2 ∧ s.stack = []) :=
  ⟨⟨{ at300 with stack := [1, 2] }, 0x2FE, 2, [1], by decide⟩, ⟨at300, 0x2FE, by decide⟩⟩

theorem witness_RetReturnsBehindTheCall :
    ∃ (s t u : State) (a : Word), s.PC = a + 2 ∧ exec (.call 0x400) s = .next t ∧ t.run = s.run ∧
      s.run = .running ∧ u.stack = t.stack :=
  ⟨at300, _, { live with stack := [0x300] }, 0x2FE, by decide, rfl, rfl, rfl, rfl⟩

theorem witness_SkipsHaveAnAddress : ∃ (s : State) (a : Word), s.PC = a + 2 ∧
    (s.readV 1).toNat < 16 ∧ 16 ≤ (s.readV 2).toNat := ⟨v12F 15 16 0, 0x2FE, by decide⟩

/-- Both values of the flag, each with x and y apart and with either one VF. -/
theorem witness_SubSetsVfThenSubtracts :
    ∃ s : State, 0 < (s.readV 1).toNat ∧ (s.readV 1).toNat > (s.readV 2).toNat ∧
      (s.readV vF).toNat > (s.readV 1).toNat := ⟨v12F 2 1 3, by decide⟩

theorem witness_SubnSetsVfThenSubtracts :
    ∃ s : State, (s.readV 2).toNat > (s.readV 1).toNat ∧ ¬ (s.readV 1).toNat > (s.readV 2).toNat :=
  ⟨v12F 1 2 3, by decide⟩

theorem witness_ShiftsKeepTheirUnequalFlags : ∃ x : RegIdx, x ≠ vF := ⟨0, by decide⟩

theorem witness_RandomByteIsMaskedAndFresh :
    (∃ (s : State) (r : Byte) (rest : List Byte), s.draws = r :: rest) ∧
    (∃ s : State, s.draws = []) :=
  ⟨⟨{ live with draws := [0xA7] }, 0xA7, [], rfl⟩, ⟨live, rfl⟩⟩

theorem witness_BlockTransfersHaveCanonicalMemory :
    Memory.wf live.cfg.font live.mem ∧ (15 : RegIdx) ≤ 15 ∧ (0 : RegIdx) ≤ 0 := by decide

theorem witness_StoreThenLoadRestoresTheRegisters :
    ∃ s t t' : State, Memory.wf s.cfg.font s.mem ∧ exec (.ldMemVx 1) s = .next t ∧ t.I = s.I ∧
      exec (.ldBVx 1) s = .next t' ∧ t'.I = s.I :=
  ⟨{ live with I := 0xFFF }, _, _, by decide, rfl, rfl, rfl, rfl⟩

theorem witness_StoreIsSeenByTheNextFetch :
    ∃ s t : State, Memory.wf s.cfg.font s.mem ∧ 1 ≤ (1 : RegIdx).val ∧
      s.I.toNat % 4096 = s.PC.toNat % 4096 ∧ exec (.ldMemVx 1) s = .next t :=
  ⟨{ live with I := 0xFFF, PC := 0x1FFF }, _, by decide, by decide, by decide, rfl⟩

/-- The tightest grid for a sprite of 15 rows, and the default one. -/
theorem witness_DrawFlipsTheSpritePixels :
    ∃ s : State, Framebuffer.wf s.cfg s.fb ∧ 8 ≤ s.cfg.fbWidth ∧ (15 : Nibble).toNat ≤ s.cfg.fbHeight ∧
      0 < s.cfg.fbHeight ∧ s.cfg.fbWidth = 8 ∧ s.cfg.fbHeight = 15 :=
  ⟨{ live with cfg := { cfg with fbWidth := 8, fbHeight := 15 } }, by decide⟩

/-- A grid of one pixel, where every set bit names it. -/
theorem witness_DrawTogglesInOrderOnAnyGrid :
    ∃ s : State, Framebuffer.wf s.cfg s.fb ∧ 0 < s.cfg.fbWidth ∧ 0 < s.cfg.fbHeight ∧
      s.fb = [0] ∧ s.cfg.fbWidth = 1 ∧ s.cfg.fbHeight = 1 :=
  ⟨{ live with fb := [0], cfg := { cfg with fbWidth := 1, fbHeight := 1 } }, by decide⟩

theorem witness_DrawTwiceRestoresTheGrid :
    ∃ s t u : State, Framebuffer.wf s.cfg s.fb ∧ 0 < s.cfg.fbWidth ∧ 0 < s.cfg.fbHeight ∧
      exec (.drw 0 1 1) s = .next t ∧ u.cfg = s.cfg ∧ u.fb = t.fb ∧ u.I = s.I ∧
      u.readV 0 = s.readV 0 ∧ u.readV 1 = s.readV 1 ∧
      (∀ r < 1, u.memRead (s.I.toNat + r) = s.memRead (s.I.toNat + r)) :=
  ⟨sprite 0xFF 0 1, _, { sprite 0xFF 0 1 with fb := [64, 65, 66, 67, 68, 69, 70, 71] },
    by decide, by decide, by decide, rfl, rfl, rfl, rfl, rfl, rfl, fun _ _ => rfl⟩

end Sys2Proof.Tests
end

section
/-! SUPPORT. Another value in one register (`State.setReg`): what each operation, each instruction and each
transaction makes of it. An operation that does not read the register either leaves the other value in place
or overwrites it (10_state R23). -/

namespace Sys2Proof.Machine

section Commuting
variable (s : State) (w : Word) (r : Reg)

/-! ## What `setReg` leaves unchanged -/

@[simp] theorem setReg_mem : (s.setReg w r).mem = s.mem := by cases r <;> rfl
@[simp] theorem setReg_PC : (s.setReg w r).PC = s.PC := by cases r <;> rfl
@[simp] theorem setReg_stack : (s.setReg w r).stack = s.stack := by cases r <;> rfl
@[simp] theorem setReg_run : (s.setReg w r).run = s.run := by cases r <;> rfl
@[simp] theorem setReg_waitReg : (s.setReg w r).waitReg = s.waitReg := by cases r <;> rfl
@[simp] theorem setReg_fb : (s.setReg w r).fb = s.fb := by cases r <;> rfl
@[simp] theorem setReg_keys : (s.setReg w r).keys = s.keys := by cases r <;> rfl
@[simp] theorem setReg_ctl : (s.setReg w r).ctl = s.ctl := by cases r <;> rfl
@[simp] theorem setReg_inputs : (s.setReg w r).inputs = s.inputs := by cases r <;> rfl
@[simp] theorem setReg_draws : (s.setReg w r).draws = s.draws := by cases r <;> rfl
@[simp] theorem setReg_drawCount : (s.setReg w r).drawCount = s.drawCount := by cases r <;> rfl
@[simp] theorem setReg_cfg : (s.setReg w r).cfg = s.cfg := by cases r <;> rfl

@[simp] theorem memRead_setReg (a : Nat) : (s.setReg w r).memRead a = s.memRead a :=
  memRead_congr (setReg_mem s w r) (setReg_cfg s w r) a

@[simp] theorem pixelOn_setReg (px py : Nat) : (s.setReg w r).pixelOn px py = s.pixelOn px py :=
  pixelOn_congr (setReg_fb s w r) (setReg_cfg s w r) px py

@[simp] theorem readBytes_setReg (n : Nat) :
    ∀ a : Nat, (s.setReg w r).readBytes a n = s.readBytes a n := by
  induction n with
  | zero => exact fun _ => rfl
  | succ n ih => exact fun a => by simp only [State.readBytes, memRead_setReg, ih]

@[simp] theorem fetchWord_setReg : (s.setReg w r).fetchWord = s.fetchWord := by
  simp [State.fetchWord]

@[simp] theorem stackFull_setReg : (s.setReg w r).stackFull = s.stackFull := by
  simp [State.stackFull]

@[simp] theorem keyPressed_setReg (v : Byte) : (s.setReg w r).keyPressed v = s.keyPressed v := by
  simp [State.keyPressed]

@[simp] theorem nextRandom_setReg : (s.setReg w r).nextRandom = s.nextRandom := by
  simp [State.nextRandom]

variable {r}

theorem readV_setReg_other {x : RegIdx} (h : r ≠ .v x) : (s.setReg w r).readV x = s.readV x := by
  cases r with
  | v y => exact readV_writeV_other s _ fun e => h (by rw [e])
  | i | dt | st => rfl

theorem setReg_I_other (h : r ≠ .i) : (s.setReg w r).I = s.I := by
  cases r with
  | i => exact absurd rfl h
  | v _ | dt | st => rfl

theorem setReg_DT_other (h : r ≠ .dt) : (s.setReg w r).DT = s.DT := by
  cases r with
  | dt => exact absurd rfl h
  | v _ | i | st => rfl

theorem setReg_ST_other (h : r ≠ .st) : (s.setReg w r).ST = s.ST := by
  cases r with
  | st => exact absurd rfl h
  | v _ | i | dt => rfl

/-- Another value in one register is seen in the part of that register alone. -/
theorem same_setReg_other {p : Part} (h : p ≠ r.part) : Part.same s (s.setReg w r) p := by
  cases p with
  | mem a => exact memRead_setReg s w r a
  | v x => exact readV_setReg_other s w fun e => h (by rw [e]; rfl)
  | i => exact setReg_I_other s w fun e => h (by rw [e]; rfl)
  | dt => exact setReg_DT_other s w fun e => h (by rw [e]; rfl)
  | st => exact setReg_ST_other s w fun e => h (by rw [e]; rfl)
  | random => exact ⟨setReg_draws s w r, setReg_drawCount s w r⟩
  | pc | stack | run | waitReg | fault | fb | keys | tone | ctl | inputs | creations | outputs
  | written | cfg => cases r <;> rfl

/-! ## Operations that leave the other value in place -/

variable (r)

theorem skipIf_setReg (c : Bool) : (s.setReg w r).skipIf c = (s.skipIf c).setReg w r := by
  cases c <;> cases r <;> rfl

theorem memWrite_setReg (a : Nat) (b : Byte) :
    (s.setReg w r).memWrite a b = (s.memWrite a b).setReg w r := by cases r <;> rfl

theorem storeBytes_setReg : ∀ (bs : List Byte) (s : State) (a : Nat),
    (s.setReg w r).storeBytes a bs = (s.storeBytes a bs).setReg w r
  | [], _, _ => rfl
  | b :: bs, s, a => by
    rw [State.storeBytes, memWrite_setReg, storeBytes_setReg bs, State.storeBytes]

theorem emit_setReg (o : Output) : (s.setReg w r).emit o = (s.emit o).setReg w r := by
  cases r <;> rfl

theorem clearFb_setReg : (s.setReg w r).clearFb = s.clearFb.setReg w r := by cases r <;> rfl

theorem togglePixel_setReg (px py : Nat) :
    (s.setReg w r).togglePixel px py = (s.togglePixel px py).setReg w r := by cases r <;> rfl

theorem togglePixels_setReg : ∀ (ps : List (Nat × Nat)) (s : State),
    (s.setReg w r).togglePixels ps = ((s.togglePixels ps).1, (s.togglePixels ps).2.setReg w r)
  | [], _ => rfl
  | p :: ps, s => by
    simp only [State.togglePixels, togglePixel_setReg, togglePixels_setReg ps, pixelOn_setReg]

theorem afterRandom_setReg : (s.setReg w r).afterRandom = s.afterRandom.setReg w r := by
  unfold State.afterRandom
  rw [setReg_draws]
  cases s.draws <;> cases r <;> rfl

theorem raiseFault_setReg (c : FaultCause) (op a : Word) :
    (s.setReg w r).raiseFault c op a = (s.raiseFault c op a).setReg w r := by cases r <;> rfl

theorem advance_setReg (k : Nat) : (s.setReg w r).advance k = (s.advance k).setReg w r := by
  cases r <;> rfl

theorem prepared_setReg (k : Nat) (i : Instr) :
    (s.setReg w r).prepared k i = (s.prepared k i).setReg w r := by cases r <;> rfl

theorem startFrame_setReg : (s.setReg w r).startFrame = s.startFrame.setReg w r := by
  unfold State.startFrame
  rw [setReg_run]
  split <;> cases r <;> rfl

theorem loadProgram_setReg (bytes : List Byte) :
    (s.setReg w r).loadProgram bytes = (s.loadProgram bytes).setReg w r := by
  unfold State.loadProgram
  split
  · exact emit_setReg s w r _
  · split
    · exact emit_setReg s w r _
    · exact storeBytes_setReg w r bytes s _

/-! ## Operations that may overwrite it -/

theorem writeV_setReg (x : RegIdx) (b : Byte) :
    (s.setReg w r).writeV x b = if r = .v x then s.writeV x b else (s.writeV x b).setReg w r := by
  cases r with
  | v y =>
    by_cases h : y = x
    · subst h
      simp [State.setReg, State.writeV]
    · have hxy : y.val ≠ x.val := fun e => h (Fin.ext e)
      simp [State.setReg, State.writeV, h, Vector.set_comm _ _ hxy]
  | i | dt | st => rfl

theorem setI_setReg (a : Word) : { s.setReg w r with I := a } =
    if r = .i then { s with I := a } else { s with I := a }.setReg w r := by cases r <;> rfl

theorem setDT_setReg (b : Byte) : { s.setReg w r with DT := b } =
    if r = .dt then { s with DT := b } else { s with DT := b }.setReg w r := by cases r <;> rfl

theorem setST_setReg (b : Byte) : { s.setReg w r with ST := b } =
    if r = .st then { s with ST := b } else { s with ST := b }.setReg w r := by cases r <;> rfl

/-- The loads overwrite `V[0]` to `V[n-1]` with bytes of memory, which the other value is not part of
(43_index_memory R226). -/
theorem loadRegs_setReg (a n : Nat) :
    (s.setReg w r).loadRegs a n =
      if r ∈ (List.range n).map fun k => Reg.v (Fin.ofNat 16 k) then s.loadRegs a n
      else (s.loadRegs a n).setReg w r := by
  induction n with
  | zero => rfl
  | succ n ih =>
    rw [State.loadRegs, ih, List.range_succ, List.map_append, memRead_setReg]
    by_cases hin : r ∈ (List.range n).map fun k => Reg.v (Fin.ofNat 16 k)
    · rw [if_pos hin, if_pos (List.mem_append_left _ hin), State.loadRegs]
    · rw [if_neg hin, writeV_setReg]
      simp only [List.mem_append, hin, false_or, List.map_singleton, List.mem_singleton,
        State.loadRegs]

/-- `create` reads no register: it gives every one its value of the new creation (70_reset R320). -/
theorem createBlock_setReg : (s.setReg w r).createBlock = s.createBlock := by cases r <;> rfl

end Commuting
end Sys2Proof.Machine
end

section
/-! SUPPORT. Noninterference: what an instruction, a transaction and a step make of another value in a
register they do not read (10_state R23, 00_scope D7). -/

namespace Sys2Proof.Machine

/-! ## An instruction -/

theorem mem_regRange {x : RegIdx} {r : Reg} : r ∈ regRange x ↔ ∃ k ≤ x, r = .v k := by
  simp only [regRange, List.mem_map, List.mem_range]
  constructor
  · rintro ⟨k, hk, rfl⟩
    have hlt : k < 16 := by omega
    exact ⟨Fin.ofNat 16 k, Fin.le_def.2 (by simp [Nat.mod_eq_of_lt hlt]; omega), rfl⟩
  · rintro ⟨k, hk, rfl⟩
    exact ⟨k.val, Nat.lt_succ_of_le hk, by simp⟩

theorem regsUpTo_setReg (s : State) (w : Word) {r : Reg} {x : RegIdx} (h : r ∉ regRange x) :
    (s.setReg w r).regsUpTo x = s.regsUpTo x := by
  apply List.ext_getElem (by simp only [regsUpTo_length])
  intro k hk _
  rw [regsUpTo_length] at hk
  rw [regsUpTo_getElem, regsUpTo_getElem]
  exact readV_setReg_other s w fun e => h (mem_regRange.2 ⟨_, Nat.le_of_lt_succ hk, e⟩)

theorem drawPixels_setReg (s : State) (w : Word) {r : Reg} {x y : RegIdx} {n : Nibble}
    (h : r ∉ regsRead (.drw x y n)) : (s.setReg w r).drawPixels x y n = s.drawPixels x y n := by
  by_cases hn : n = 0
  · simp only [regsRead, hn, if_true, List.mem_cons, List.not_mem_nil, or_false, not_or] at h
    obtain ⟨hx, hy⟩ := h
    simp [State.drawPixels, State.readBytes, hn, readV_setReg_other s w hx, readV_setReg_other s w hy]
  · simp only [regsRead, hn, if_false, List.mem_cons, List.not_mem_nil, or_false, not_or] at h
    obtain ⟨hx, hy, hi⟩ := h
    simp [State.drawPixels, readV_setReg_other s w hx, readV_setReg_other s w hy,
      setReg_I_other s w hi]

/-- An instruction that does not read a register does the same whatever the register holds, and leaves the
other value in it unless it writes it (10_state R23). -/
theorem exec_setReg {i : Instr} {r : Reg} {s t : State} (w : Word) (hr : r ∉ regsRead i)
    (h : exec i s = .next t) :
    exec i (s.setReg w r) = .next (if r ∈ regsWritten i then t else t.setReg w r) := by
  cases i
  case ret =>
    rcases execRet_cases h with ⟨hs, rfl⟩ | ⟨below, v, hs, rfl⟩
    · simp only [exec, execRet, setReg_stack, hs, List.getLast?_nil]
      cases r <;> rfl
    · simp only [exec, execRet, setReg_stack, hs, List.getLast?_append, List.getLast?_singleton,
        Option.some_or, List.dropLast_concat]
      cases r <;> rfl
  case call nnn =>
    rcases execCall_cases h with ⟨hf, rfl⟩ | ⟨hf, rfl⟩
    all_goals
      simp only [exec, execCall, stackFull_setReg, hf]
      cases r <;> rfl
  all_goals cases h
  case jp | cls | ldVxK => cases r <;> rfl
  case drw x y n =>
    simp [exec, execDrw, drawPixels_setReg s w hr, togglePixels_setReg, writeV_setReg, regsWritten]
  case ldMemVx x =>
    obtain ⟨hi, hx⟩ := not_or.1 (List.mem_cons.not.1 hr)
    simp [exec, execLdMemVx, regsUpTo_setReg s w hx, setReg_I_other s w hi, storeBytes_setReg,
      regsWritten]
  all_goals simp only [regsRead, List.mem_cons, List.not_mem_nil, or_false, not_or] at hr
  case jpV0 =>
    simp only [exec, execJpV0, readV_setReg_other s w hr]
    cases r <;> rfl
  case ldBVx | ldVxMem =>
    simp [exec, execLdBVx, execLdVxMem, readV_setReg_other, setReg_I_other, hr, storeBytes_setReg,
      loadRegs_setReg, regsWritten, regRange]
  case seImm | sneImm | skp | sknp | seReg | sneReg =>
    simp [exec, execSeImm, execSneImm, execSkp, execSknp, execSeReg, execSneReg, readV_setReg_other,
      hr, skipIf_setReg, regsWritten]
  case ldImm | addImm | ldReg | orReg | andReg | xorReg | ldVxDt | rnd =>
    simp [exec, execLdImm, execAddImm, execLdReg, execOrReg, execAndReg, execXorReg, execLdVxDt,
      execRnd, readV_setReg_other, setReg_DT_other, hr, afterRandom_setReg, writeV_setReg, regsWritten]
  case addReg | sub | shr | subn | shl =>
    by_cases hF : r = .v vF
    · subst hF
      simp [exec, execAddReg, execSub, execShr, execSubn, execShl, readV_setReg_other, hr,
        writeV_setReg, regsWritten]
    · simp [exec, execAddReg, execSub, execShr, execSubn, execShl, readV_setReg_other, hr, hF,
        writeV_setReg, regsWritten]
  case ldI nnn =>
    simp only [exec, execLdI, regsWritten, List.mem_singleton]
    exact congrArg Host.Outcome.next (setI_setReg s w r _)
  case addIVx x =>
    obtain ⟨hi, hx⟩ := hr
    simp only [exec, execAddIVx, readV_setReg_other s w hx, setReg_I_other s w hi, regsWritten,
      List.mem_singleton]
    exact congrArg Host.Outcome.next (setI_setReg s w r _)
  case ldFVx x =>
    simp only [exec, execLdFVx, readV_setReg_other s w hr, regsWritten, List.mem_singleton]
    exact congrArg Host.Outcome.next (setI_setReg s w r _)
  case ldDtVx x =>
    simp only [exec, execLdDtVx, readV_setReg_other s w hr, regsWritten, List.mem_singleton]
    exact congrArg Host.Outcome.next (setDT_setReg s w r _)
  case ldStVx x =>
    simp only [exec, execLdStVx, readV_setReg_other s w hr, regsWritten, List.mem_singleton]
    exact congrArg Host.Outcome.next (setST_setReg s w r _)

/-! ## A step -/

section Step
variable (s : State) (w : Word) (r : Reg)

/-- The key event either leaves the other value in place or writes that very register (40_cycle R136). -/
theorem keyEvent_setReg (k : Fin 16) :
    (s.setReg w r).keyEvent k = s.keyEvent k ∨
      (s.setReg w r).keyEvent k = (s.keyEvent k).setReg w r := by
  unfold State.keyEvent
  rw [setReg_run, setReg_waitReg, writeV_setReg]
  split
  · split
    · exact .inl rfl
    · exact .inr (by cases r <;> rfl)
  · exact .inr rfl

theorem keyPress_setReg (k : Fin 16) :
    (s.setReg w r).keyPress k = s.keyPress k ∨
      (s.setReg w r).keyPress k = (s.keyPress k).setReg w r := by
  have hkeys : { s.setReg w r with keys := (s.setReg w r).keys.set k.val true } =
    { s with keys := s.keys.set k.val true }.setReg w r := by cases r <;> rfl
  simp only [State.keyPress]
  rw [hkeys]
  exact keyEvent_setReg _ w r k

theorem accept_setReg (t : Input) :
    (s.setReg w r).accept t = s.accept t ∨ (s.setReg w r).accept t = (s.accept t).setReg w r := by
  cases t with
  | create => exact .inl (createBlock_setReg s w r)
  | loadProgram bytes => exact .inr (loadProgram_setReg s w r bytes)
  | loadUnavailable => exact .inr (emit_setReg s w r _)
  | runOneFrame => exact .inr (startFrame_setReg s w r)
  | keyPress k => exact keyPress_setReg s w r k
  | setKeys ks => exact .inr (by cases r <;> rfl)

theorem acceptNext_setReg :
    (s.setReg w r).acceptNext = s.acceptNext ∨
      (s.setReg w r).acceptNext = s.acceptNext.setReg w r := by
  cases hi : s.inputs with
  | nil =>
    simp only [State.acceptNext, setReg_inputs, hi]
    exact .inr (startFrame_setReg s w r)
  | cons t rest =>
    have hrest : { s.setReg w r with inputs := rest } = { s with inputs := rest }.setReg w r := by
      cases r <;> rfl
    rw [acceptNext_cons hi, acceptNext_cons ((setReg_inputs s w r).trans hi), hrest]
    exact accept_setReg _ w r t

variable {r}

theorem tick_setReg (hdt : r ≠ .dt) (hst : r ≠ .st) : (s.setReg w r).tick = s.tick.setReg w r := by
  cases r with
  | dt => exact absurd rfl hdt
  | st => exact absurd rfl hst
  | v _ | i => rfl

theorem syncTone_setReg (hst : r ≠ .st) : (s.setReg w r).syncTone = s.syncTone.setReg w r := by
  unfold State.syncTone
  rw [setReg_ST_other s w hst]
  split <;> cases r <;> rfl

/-- The tick reads DT and ST, the rest of the frame's end ST alone (40_cycle R131 to R133). -/
theorem endRunning_setReg (hdt : r ≠ .dt) (hst : r ≠ .st) :
    (s.setReg w r).endRunning = s.endRunning.setReg w r := by
  rw [State.endRunning, tick_setReg s w hdt hst, syncTone_setReg _ w hst, State.present, setReg_fb,
    emit_setReg]
  rfl

end Step

/-- With `INIT_REGS = Unwritten`, reads that find no unwritten register leave such a register out (D7). -/
theorem not_mem_of_unwrittenOf_eq_none {s : State} {rs : List Reg} {r : Reg}
    (hu : s.cfg.initRegs = .unwritten) (h : s.unwrittenOf rs = none) (hw : s.written.has r = false) :
    r ∉ rs := by
  intro hr
  simp only [State.unwrittenOf, hu, List.find?_eq_none] at h
  simpa [hw] using h r hr

/-- A covered step does not see what an unwritten register holds: it leaves another value in place or
overwrites it (00_scope R7, D7, U9). -/
theorem step_setReg_of_covered {s t : State} {r : Reg} (w : Word) (hu : s.cfg.initRegs = .unwritten)
    (hc : s.Covered) (hw : s.written.has r = false) (h : step s = .next t) :
    step (s.setReg w r) = .next t ∨ step (s.setReg w r) = .next (t.setReg w r) := by
  obtain ⟨hinstr, htick⟩ := hc
  have hctl := setReg_ctl s w r
  have hrun := setReg_run s w r
  rcases step_cases h with ⟨hi, rfl⟩ | ⟨k, i, hk, hr, hlt, hd, he⟩ | ⟨k, e, hk, hr, hlt, hd, rfl⟩ |
    ⟨k, hk, hstop, rfl⟩ | ⟨hf, hr, rfl⟩ | ⟨hf, hr, rfl⟩
  · rw [step_idle (hctl.trans hi)]
    exact (acceptNext_setReg s w r).imp (congrArg _) (congrArg _)
  · have hread := not_mem_of_unwrittenOf_eq_none hu (hinstr k i hk hr hlt hd) hw
    rw [step_instr (hctl.trans hk) (hrun.trans hr) (by rwa [setReg_cfg]), instrStep,
      fetchWord_setReg, hd]
    simp only [prepared_setReg, exec_setReg w hread he]
    split
    · exact .inl rfl
    · exact .inr rfl
  · rw [step_instr (hctl.trans hk) (hrun.trans hr) (by rwa [setReg_cfg]), instrStep,
      fetchWord_setReg, hd, advance_setReg, raiseFault_setReg, setReg_PC]
    exact .inr rfl
  · rw [step_leave (hctl.trans hk) (by rwa [hrun, setReg_cfg])]
    exact .inr (by cases r <;> rfl)
  · have hread := not_mem_of_unwrittenOf_eq_none hu (htick hf hr) hw
    simp only [List.mem_cons, List.not_mem_nil, or_false, not_or] at hread
    rw [step_frameEnd (hctl.trans hf), endFrame_of_running (hrun.trans hr),
      endRunning_setReg s w hread.1 hread.2]
    exact .inr (by cases r <;> rfl)
  · rw [step_frameEnd (hctl.trans hf), endFrame_of_paused (by rwa [hrun])]
    exact .inr (by cases r <;> rfl)

/-- No state stops the machine (60_exceptions R287; log 14). -/
theorem step_answers_next (s : State) : s.Runs := by
  cases hc : s.ctl with
  | idle => exact ⟨_, step_idle hc⟩
  | frameEnd => exact ⟨_, step_frameEnd hc⟩
  | inFrame k =>
    by_cases hr : s.run = .running ∧ k < s.cfg.speed
    · rw [State.Runs, step_instr hc hr.1 hr.2, instrStep]
      split
      · exact ⟨_, rfl⟩
      · exact exec_answers_next _ _
    · exact ⟨_, step_leave hc hr⟩

theorem Part.same_refl (s : State) (p : Part) : Part.same s s p := by
  cases p
  case random => exact ⟨rfl, rfl⟩
  all_goals rfl

/-! ## The registers at a creation (70_reset R320) -/

theorem readV_initial (c : Config) (n : Nat) (x : RegIdx) :
    (State.initial c n).readV x = powerUpByte c n x.val := by
  fin_cases x <;> rfl

theorem Written.has_none (r : Reg) : Written.none.has r = false := by
  cases r with
  | v x => simp [Written.has, Written.none]
  | i | dt | st => rfl

theorem powerUpWord_unwritten {c : Config} (h : c.initRegs = .unwritten) (n k : Nat) :
    powerUpWord c n k = Config.powerUp n k := by simp [powerUpWord, h]

end Sys2Proof.Machine
end

section
/-! PROOF. The statement on `INIT_REGS = Unwritten` (00_scope R7, 92_eei_decisions D7,
93_implementation_defined U9). -/

namespace Sys2Proof.Machine

/-- Settles O14: no step stops; `create` gives the registers the free values of the new creation; and a
covered step leaves the other value of an unwritten register in place or overwrites it. -/
theorem unwrittenRegistersHoldFreeValues : Obligations.UnwrittenRegistersHoldFreeValues := by
  intro s hu
  refine ⟨step_answers_next s, fun rest hidle hin => ?_, fun r w t hc hw h => ?_⟩
  · refine ⟨_, (step_idle hidle).trans (congrArg _ (acceptNext_cons hin)), rfl, fun x => ?_,
      powerUpWord_unwritten hu _ _, ?_, ?_, Written.has_none⟩
    · exact (readV_initial _ _ x).trans (congrArg _ (powerUpWord_unwritten hu _ _))
    · exact congrArg (BitVec.setWidth 8) (powerUpWord_unwritten hu _ _)
    · exact congrArg (BitVec.setWidth 8) (powerUpWord_unwritten hu _ _)
  · rcases step_setReg_of_covered w hu hc hw h with h' | h'
    · exact ⟨t, h', fun p _ => Part.same_refl t p⟩
    · exact ⟨_, h', fun p hp => same_setReg_other t w hp⟩

end Sys2Proof.Machine
end

section
/-! SUPPORT. What one instruction, one transaction and the end of a frame leave alone of memory, the grid,
the stack, the timers and the configuration (10_state R28 to R36, 40_cycle R131 to R139). -/

namespace Sys2Proof.Machine

/-! ## An instruction -/

/-- Memory is written by Fx33 and Fx55 alone, and only by storing bytes (20_memory R64). -/
theorem exec_mem {i : Instr} {s t : State} (h : exec i s = .next t) :
    t.mem = s.mem ∨
    ((∃ x, i = .ldBVx x ∨ i = .ldMemVx x) ∧ ∃ a bs, t.mem = (s.storeBytes a bs).mem) := by
  cases i
  case ret => rcases execRet_cases h with ⟨_, rfl⟩ | ⟨_, _, _, rfl⟩ <;> exact .inl rfl
  case call => rcases execCall_cases h with ⟨_, rfl⟩ | ⟨_, rfl⟩ <;> exact .inl rfl
  all_goals cases h
  case ldBVx x => exact .inr ⟨⟨x, .inl rfl⟩, _, _, rfl⟩
  case ldMemVx x => exact .inr ⟨⟨x, .inr rfl⟩, _, _, rfl⟩
  all_goals exact .inl (by simp)

/-- The grid is written by 00E0 and Dxyn alone, by clearing it and by toggling pixels (10_state R41, R42). -/
theorem exec_fb {i : Instr} {s t : State} (h : exec i s = .next t) :
    t.fb = s.fb ∨ (i = .cls ∧ t.fb = []) ∨
    (∃ x y n, i = .drw x y n ∧ t.fb = (s.togglePixels (s.drawPixels x y n)).2.fb) := by
  cases i
  case ret => rcases execRet_cases h with ⟨_, rfl⟩ | ⟨_, _, _, rfl⟩ <;> exact .inl rfl
  case call => rcases execCall_cases h with ⟨_, rfl⟩ | ⟨_, rfl⟩ <;> exact .inl rfl
  all_goals cases h
  case cls => exact .inr (.inl ⟨rfl, rfl⟩)
  case drw x y n => exact .inr (.inr ⟨x, y, n, rfl, rfl⟩)
  all_goals exact .inl (by simp)

/-- The timers are written by Fx15 and Fx18 alone, one each (10_state R29, R30). -/
theorem exec_timers {i : Instr} {s t : State} (h : exec i s = .next t) :
    (t.DT = s.DT ∧ t.ST = s.ST) ∨ (∃ x, i = .ldDtVx x ∧ t.ST = s.ST) ∨
    (∃ x, i = .ldStVx x ∧ t.DT = s.DT) := by
  cases i
  case ret => rcases execRet_cases h with ⟨_, rfl⟩ | ⟨_, _, _, rfl⟩ <;> exact .inl ⟨rfl, rfl⟩
  case call => rcases execCall_cases h with ⟨_, rfl⟩ | ⟨_, rfl⟩ <;> exact .inl ⟨rfl, rfl⟩
  all_goals cases h
  case ldDtVx x => exact .inr (.inl ⟨x, rfl, rfl⟩)
  case ldStVx x => exact .inr (.inr ⟨x, rfl, rfl⟩)
  all_goals exact .inl (by simp)

/-- The stack is written by CALL and RET alone (10_state R28). -/
theorem exec_stack {i : Instr} {s t : State} (hr : i ≠ .ret) (hc : ∀ nnn, i ≠ .call nnn)
    (h : exec i s = .next t) : t.stack = s.stack := by
  by_cases hk : ∃ x, i = .ldVxK x
  · obtain ⟨x, rfl⟩ := hk
    cases h
    rfl
  · exact (exec_sameControl hr hc (not_exists.1 hk) h).stack

/-- I is written by the instructions that list it as written alone (10_state R26). -/
theorem exec_I {i : Instr} {s t : State} (hw : Reg.i ∉ regsWritten i) (h : exec i s = .next t) :
    t.I = s.I := by
  cases i
  case ret => rcases execRet_cases h with ⟨_, rfl⟩ | ⟨_, _, _, rfl⟩ <;> rfl
  case call => rcases execCall_cases h with ⟨_, rfl⟩ | ⟨_, rfl⟩ <;> rfl
  case ldI | addIVx | ldFVx => exact absurd (List.mem_singleton_self _) hw
  all_goals
    cases h
    simp

/-! ## The end of a running frame -/

/-- What the end of a running frame can do: change the timers, the tone and the outputs and nothing else
(40_cycle R131 to R133). -/
theorem endRunning_eq (s : State) : s.endRunning = { s with
    DT := s.endRunning.DT
    ST := s.endRunning.ST
    tone := s.endRunning.tone
    outputs := s.endRunning.outputs } := by
  by_cases h : tickTimer s.ST = 0
  · rw [endRunning_of_silent h]
  · rw [endRunning_of_sounding h]

section
variable (s : State)
@[simp] theorem endRunning_stack : s.endRunning.stack = s.stack := by rw [endRunning_eq]
@[simp] theorem endRunning_keys : s.endRunning.keys = s.keys := by rw [endRunning_eq]
@[simp] theorem endRunning_inputs : s.endRunning.inputs = s.inputs := by rw [endRunning_eq]
@[simp] theorem endRunning_cfg : s.endRunning.cfg = s.cfg := by rw [endRunning_eq]
end

/-- The tone call is one of the two of 10_state R46 (40_cycle R132). -/
theorem endRunning_tone (s : State) :
    s.endRunning.tone = none ∨ s.endRunning.tone = some s.cfg.toneFreq := by
  by_cases h : tickTimer s.ST = 0
  · exact .inl (by rw [endRunning_of_silent h])
  · exact .inr (by rw [endRunning_of_sounding h])

/-! ## A transaction -/

/-- The start of a frame, case by case (40_cycle R130, R138). -/
theorem startFrame_cases (s : State) :
    (s.run = .halted ∧ s.startFrame = s) ∨
    (s.run ≠ .halted ∧ s.startFrame = { s with ctl := .inFrame 0 }) := by
  by_cases hr : s.run = .halted
  · exact .inl ⟨hr, if_pos hr⟩
  · exact .inr ⟨hr, if_neg hr⟩

/-- A program load, case by case (70_reset R322, 60_exceptions R286). -/
theorem loadProgram_cases (s : State) (bytes : List Byte) :
    (bytes.length = 0 ∧ s.loadProgram bytes = s.emit (.loadError .empty)) ∨
    (maxProgramBytes < bytes.length ∧ s.loadProgram bytes = s.emit (.loadError .tooLarge)) ∨
    (0 < bytes.length ∧ bytes.length ≤ maxProgramBytes ∧
      s.loadProgram bytes = s.storeBytes 0x200 bytes) := by
  by_cases h0 : bytes.length = 0
  · exact .inl ⟨h0, if_pos h0⟩
  by_cases hmax : maxProgramBytes < bytes.length
  · exact .inr (.inl ⟨hmax, (if_neg h0).trans (if_pos hmax)⟩)
  · exact .inr (.inr ⟨Nat.pos_of_ne_zero h0, Nat.le_of_not_lt hmax, (if_neg h0).trans (if_neg hmax)⟩)

/-- A key press, case by case (10_state R45, 40_cycle R136). -/
theorem keyPress_cases (s : State) (k : Fin 16) :
    (s.run = .waitingForKey ∧ s.keyPress k =
      { (s.writeV s.waitReg (BitVec.ofNat 8 k.val)).markWritten [.v s.waitReg] with
        keys := s.keys.set k.val true
        run := .running }) ∨
    (s.run ≠ .waitingForKey ∧ s.keyPress k = { s with keys := s.keys.set k.val true }) := by
  by_cases hr : s.run = .waitingForKey
  · exact .inl ⟨hr, if_pos hr⟩
  · exact .inr ⟨hr, if_neg hr⟩

/-- What no transaction but `create` touches. -/
structure SameUntilCreate (s t : State) : Prop where
  I : t.I = s.I
  PC : t.PC = s.PC
  stack : t.stack = s.stack
  DT : t.DT = s.DT
  ST : t.ST = s.ST
  waitReg : t.waitReg = s.waitReg
  fault : t.fault = s.fault
  fb : t.fb = s.fb
  tone : t.tone = s.tone
  draws : t.draws = s.draws
  drawCount : t.drawCount = s.drawCount
  creations : t.creations = s.creations
  cfg : t.cfg = s.cfg

theorem startFrame_same (s : State) : SameUntilCreate s s.startFrame := by
  rcases startFrame_cases s with ⟨-, he⟩ | ⟨-, he⟩ <;> rw [he] <;> constructor <;> rfl

theorem loadProgram_same (s : State) (bytes : List Byte) :
    SameUntilCreate s (s.loadProgram bytes) := by
  rcases loadProgram_cases s bytes with ⟨-, he⟩ | ⟨-, he⟩ | ⟨-, -, he⟩ <;> rw [he] <;>
    constructor <;> simp

theorem keyPress_same (s : State) (k : Fin 16) : SameUntilCreate s (s.keyPress k) := by
  rcases keyPress_cases s k with ⟨-, he⟩ | ⟨-, he⟩ <;> rw [he] <;> constructor <;> rfl

/-- A key press, a program load, a change of the key table and the start of a frame touch none of these
(40_cycle R120, R136, 70_reset R322). -/
theorem accept_same (s : State) {i : Input} (h : i ≠ .create) : SameUntilCreate s (s.accept i) := by
  cases i with
  | create => exact absurd rfl h
  | loadProgram bytes => exact loadProgram_same s bytes
  | loadUnavailable => constructor <;> rfl
  | runOneFrame => exact startFrame_same s
  | keyPress k => exact keyPress_same s k
  | setKeys ks => constructor <;> rfl

/-- In IDLE either `create` is accepted or none of these is touched. -/
theorem acceptNext_cases (s : State) :
    (∃ rest, s.inputs = .create :: rest ∧ s.acceptNext = { s with inputs := rest }.createBlock) ∨
    SameUntilCreate s s.acceptNext := by
  cases hi : s.inputs with
  | nil =>
    rw [State.acceptNext, hi]
    exact .inr (startFrame_same s)
  | cons i rest =>
    rw [acceptNext_cons hi]
    by_cases hc : i = .create
    · subst hc
      exact .inl ⟨rest, rfl, rfl⟩
    · exact .inr { accept_same { s with inputs := rest } hc with }

/-- No transaction changes the configuration, `create` included (10_state R36). -/
theorem acceptNext_cfg (s : State) : s.acceptNext.cfg = s.cfg := by
  rcases acceptNext_cases s with ⟨rest, -, he⟩ | hsame
  · rw [he]
    rfl
  · exact hsame.cfg

end Sys2Proof.Machine
end

section
/-! SUPPORT. The invariant `State.Inv`: creation gives it, and every instruction, every transaction and the
end of a frame keep it. -/

namespace Sys2Proof.Machine

/-! ## Creation -/

theorem default_wellFormed : Config.default.WellFormed := by
  refine ⟨rfl, rfl, decide_eq_true ?_⟩
  show (0 : Rat) < (Config.openToneNum + 1) / (Config.openToneDen + 1)
  positivity

/-- A creation under an admitted configuration satisfies the invariant (70_reset R320). -/
theorem initial_inv {c : Config} (hc : c.WellFormed) (n : Nat) : (State.initial c n).Inv where
  cfg := hc
  mem := Memory.wf_nil _
  fb := Framebuffer.wf_nil _
  stack := fun d _ => Nat.zero_le d
  fault := ⟨nofun, nofun⟩
  halted := nofun
  budget := nofun
  tone := .inl rfl

theorem createBlock_inv {s : State} (h : s.Inv) : s.createBlock.Inv :=
  { initial_inv h.cfg (s.creations + 1) with }

/-! ## Instructions -/

/-- Outside HALTED no fault record stands (10_state R32). -/
theorem State.Inv.fault_eq_none {s : State} (h : s.Inv) (hr : s.run ≠ .halted) : s.fault = none :=
  Option.not_isSome_iff_eq_none.1 (mt h.fault.2 hr)

/-- A fault writes its record, halts the block and ends the frame at once (60_exceptions R283). -/
theorem raiseFault_inv {s : State} (h : s.Inv) (c : FaultCause) (op a : Word) :
    (s.raiseFault c op a).Inv :=
  { h with
    fault := by simp
    halted := fun _ => rfl
    budget := nofun }

/-- The advance of an instruction that the budget still allows (40_cycle R130, R135). -/
theorem advance_inv {s : State} {k : Nat} (h : s.Inv) (hr : s.run = .running)
    (hk : k < s.cfg.speed) : (s.advance k).Inv :=
  { h with
    halted := fun hh => absurd (hr.symm.trans hh) nofun
    budget := fun k' hk' => by
      cases hk'
      exact hk }

theorem prepared_inv {s : State} {k : Nat} (i : Instr) (h : s.Inv) (hr : s.run = .running)
    (hk : k < s.cfg.speed) : (s.prepared k i).Inv :=
  { advance_inv h hr hk with }

theorem exec_ret_inv {s t : State} (h : s.Inv) (he : exec .ret s = .next t) : t.Inv := by
  rcases execRet_cases he with ⟨-, rfl⟩ | ⟨below, v, hs, rfl⟩
  · exact raiseFault_inv h _ _ _
  · exact
      { h with
        stack := fun d hd => by
          have hle := h.stack d hd
          rw [hs, List.length_append] at hle
          exact Nat.le_of_add_right_le hle }

/-- A push finds room: the stack is neither full nor above its depth (41_flow R153). -/
theorem exec_call_inv {nnn : Addr} {s t : State} (h : s.Inv) (he : exec (.call nnn) s = .next t) :
    t.Inv := by
  rcases execCall_cases he with ⟨-, rfl⟩ | ⟨hfull, rfl⟩
  · exact raiseFault_inv h _ _ _
  · exact
      { h with
        stack := fun d hd => by
          have hle := h.stack d hd
          have hne : s.stack.length ≠ d := fun e => by
            rw [(stackFull_iff s).2 (e ▸ hd)] at hfull
            cases hfull
          simp only [push_stack, List.length_append, List.length_singleton]
          omega }

theorem exec_ldVxK_inv {x : RegIdx} {s t : State} (h : s.Inv) (hr : s.run = .running)
    (he : exec (.ldVxK x) s = .next t) : t.Inv := by
  cases he
  have hnone := h.fault_eq_none (hr ▸ nofun)
  exact
    { h with
      fault := by simp [hnone]
      halted := nofun }

/-- Memory stays canonical: Fx33 and Fx55 store bytes, no other instruction writes it. -/
theorem exec_mem_wf {i : Instr} {s t : State} (h : Memory.wf s.cfg.font s.mem)
    (he : exec i s = .next t) : Memory.wf s.cfg.font t.mem := by
  rcases exec_mem he with hm | ⟨-, a, bs, hm⟩
  · rwa [hm]
  · rw [hm]
    exact storeBytes_wf bs a h

/-- The grid stays canonical: 00E0 clears it, Dxyn toggles pixels of the grid. -/
theorem exec_fb_wf {i : Instr} {s t : State} (h : s.Inv) (he : exec i s = .next t) :
    Framebuffer.wf s.cfg t.fb := by
  obtain ⟨hw, hh, -⟩ := h.cfg
  rcases exec_fb he with hf | ⟨-, hf⟩ | ⟨x, y, n, -, hf⟩
  · rw [hf]
    exact h.fb
  · rw [hf]
    exact Framebuffer.wf_nil _
  · rw [hf]
    exact togglePixels_wf (of_decide_eq_true hw) (of_decide_eq_true hh) _ h.fb

/-- An instruction of a running block keeps the invariant. -/
theorem exec_inv {i : Instr} {s t : State} (h : s.Inv) (hr : s.run = .running)
    (he : exec i s = .next t) : t.Inv := by
  by_cases hret : i = .ret
  · subst hret
    exact exec_ret_inv h he
  by_cases hcall : ∃ nnn, i = .call nnn
  · obtain ⟨nnn, rfl⟩ := hcall
    exact exec_call_inv h he
  by_cases hkey : ∃ x, i = .ldVxK x
  · obtain ⟨x, rfl⟩ := hkey
    exact exec_ldVxK_inv h hr he
  have henv := exec_sameEnvironment he
  have hctl := exec_sameControl hret (not_exists.1 hcall) (not_exists.1 hkey) he
  exact
    { cfg := henv.cfg ▸ h.cfg
      mem := henv.cfg ▸ exec_mem_wf h.mem he
      fb := henv.cfg ▸ exec_fb_wf h he
      stack := by simpa only [henv.cfg, hctl.stack] using h.stack
      fault := by simpa only [hctl.run, hctl.fault] using h.fault
      halted := by simpa only [hctl.run, hctl.ctl] using h.halted
      budget := by simpa only [hctl.ctl, henv.cfg] using h.budget
      tone := by simpa only [henv.tone, henv.cfg] using h.tone }

/-! ## Transactions -/

theorem startFrame_inv {s : State} (h : s.Inv) : s.startFrame.Inv := by
  rcases startFrame_cases s with ⟨-, he⟩ | ⟨hr, he⟩ <;> rw [he]
  · exact h
  · exact
      { h with
        halted := fun hh => absurd hh hr
        budget := fun k hk => by
          cases hk
          exact Nat.zero_le _ }

theorem storeBytes_inv {s : State} (h : s.Inv) (a : Nat) (bs : List Byte) : (s.storeBytes a bs).Inv := by
  have hmem := storeBytes_wf bs a h.mem
  rw [storeBytes_eq]
  exact { h with mem := hmem }

theorem loadProgram_inv {s : State} (h : s.Inv) (bytes : List Byte) : (s.loadProgram bytes).Inv := by
  rcases loadProgram_cases s bytes with ⟨-, he⟩ | ⟨-, he⟩ | ⟨-, -, he⟩ <;> rw [he]
  · exact { h with }
  · exact { h with }
  · exact storeBytes_inv h _ _

/-- The key event that ends a wait finds no fault record (40_cycle R136). -/
theorem keyPress_inv {s : State} (h : s.Inv) (k : Fin 16) : (s.keyPress k).Inv := by
  rcases keyPress_cases s k with ⟨hr, he⟩ | ⟨-, he⟩ <;> rw [he]
  · have hnone := h.fault_eq_none (fun hh => absurd (hr.symm.trans hh) nofun)
    exact
      { h with
        fault := by simp [hnone]
        halted := nofun }
  · exact { h with }

theorem accept_inv {s : State} (h : s.Inv) (i : Input) : (s.accept i).Inv := by
  cases i with
  | create => exact createBlock_inv h
  | loadProgram bytes => exact loadProgram_inv h bytes
  | loadUnavailable => exact { h with }
  | runOneFrame => exact startFrame_inv h
  | keyPress k => exact keyPress_inv h k
  | setKeys ks => exact { h with }

theorem acceptNext_inv {s : State} (h : s.Inv) : s.acceptNext.Inv := by
  cases hi : s.inputs with
  | nil =>
    rw [State.acceptNext, hi]
    exact startFrame_inv h
  | cons i rest =>
    rw [acceptNext_cons hi]
    have hrest : { s with inputs := rest }.Inv := { h with }
    exact accept_inv hrest i

/-! ## The end of a frame -/

theorem endRunning_inv {s : State} (h : s.Inv) : s.endRunning.Inv := by
  have htone := endRunning_tone s
  rw [endRunning_eq]
  exact { h with tone := htone }

theorem idle_inv {s : State} (h : s.Inv) : { s with ctl := .idle }.Inv :=
  { h with
    halted := fun _ => rfl
    budget := nofun }

/-- A halted block is in no frame, so the move to FRAME_END is one of a block that is not halted. -/
theorem leave_inv {s : State} {k : Nat} (h : s.Inv) (hk : s.ctl = .inFrame k) :
    { s with ctl := .frameEnd }.Inv :=
  { h with
    halted := fun hh => absurd (hk.symm.trans (h.halted hh)) nofun
    budget := nofun }

end Sys2Proof.Machine
end

section
/-! SUPPORT. Another byte in a general register, and another I: an instruction reads I only through
addresses that are reduced modulo 4096, or to add to it (10_state R23, R26, R27, 20_memory R61). -/

namespace Sys2Proof.Machine

/-- A byte in a general register, as another value of a register. -/
theorem setReg_v_setWidth (s : State) (r : RegIdx) (b : Byte) :
    s.setReg (b.setWidth 16) (.v r) = s.writeV r b := by
  simp [State.setReg]

/-! ## I modulo 4096 -/

/-- A block read depends on its address modulo 4096 alone (20_memory R61). -/
theorem readBytes_congr_mod (s : State) (n : Nat) {a b : Nat} (h : a % 4096 = b % 4096) :
    s.readBytes a n = s.readBytes b n := by
  induction n generalizing a b with
  | zero => rfl
  | succ n ih =>
    have hnext : (a + 1) % 4096 = (b + 1) % 4096 := by omega
    rw [State.readBytes, State.readBytes, memRead_congr_mod s h, ih hnext]

/-- A block load depends on its address modulo 4096 alone (20_memory R61). -/
theorem loadRegs_congr_mod (s : State) (n : Nat) {a b : Nat} (h : a % 4096 = b % 4096) :
    s.loadRegs a n = s.loadRegs b n := by
  induction n with
  | zero => rfl
  | succ n ih =>
    have hlast : (a + n) % 4096 = (b + n) % 4096 := by omega
    rw [State.loadRegs, State.loadRegs, ih, memRead_congr_mod s hlast]

theorem drawPixels_setI {s : State} {j : Word} (hj : j.toNat % 4096 = s.I.toNat % 4096)
    (x y : RegIdx) (n : Nibble) : (s.setReg j .i).drawPixels x y n = s.drawPixels x y n :=
  congrArg (spritePixels _ _) ((readBytes_setReg s j .i _ _).trans (readBytes_congr_mod s _ hj))

theorem storeBytes_setI {s : State} {j : Word} (hj : j.toNat % 4096 = s.I.toNat % 4096)
    (bs : List Byte) :
    (s.setReg j .i).storeBytes j.toNat bs = (s.storeBytes s.I.toNat bs).setReg j .i := by
  rw [storeBytes_setReg, storeBytes_congr_mod bs s hj]

theorem loadRegs_setI {s : State} {j : Word} (hj : j.toNat % 4096 = s.I.toNat % 4096) (n : Nat) :
    (s.setReg j .i).loadRegs j.toNat n = (s.loadRegs s.I.toNat n).setReg j .i := by
  rw [loadRegs_setReg, if_neg (by simp), loadRegs_congr_mod s n hj]

/-- With another I of the same low 12 bits an instruction does the same, and the I it leaves has the same
low 12 bits too. -/
theorem exec_setI {i : Instr} {s t : State} {j : Word} (hj : j.toNat % 4096 = s.I.toNat % 4096)
    (h : exec i s = .next t) :
    ∃ j', exec i (s.setReg j .i) = .next (t.setReg j' .i) ∧ j'.toNat % 4096 = t.I.toNat % 4096 := by
  by_cases hr : Reg.i ∈ regsRead i
  · cases i
    case drw x y n =>
      cases h
      refine ⟨j, ?_, by simpa using hj⟩
      simp only [exec, execDrw, drawPixels_setI hj, togglePixels_setReg]
      rfl
    case addIVx x =>
      cases h
      refine ⟨j + (s.readV x).setWidth 16, rfl, ?_⟩
      simp only [BitVec.toNat_add]
      omega
    case ldBVx | ldMemVx =>
      cases h
      exact ⟨j, congrArg Host.Outcome.next (storeBytes_setI hj _), by simpa using hj⟩
    case ldVxMem x =>
      cases h
      exact ⟨j, congrArg Host.Outcome.next (loadRegs_setI hj _), by simpa using hj⟩
    all_goals exact absurd hr (by simp [regsRead])
  · have he := exec_setReg j hr h
    by_cases hw : Reg.i ∈ regsWritten i
    · rw [if_pos hw] at he
      exact ⟨t.I, he, rfl⟩
    · rw [if_neg hw] at he
      exact ⟨j, he, exec_I hw h ▸ hj⟩

end Sys2Proof.Machine
end

section
/-! PROOF. The statements on the state: its invariant, what changes the stack, the timers and the
configuration, and what an instruction's result does not depend on (10_state). -/

namespace Sys2Proof.Machine

/-- Settles O25: reset is a creation under the default configuration, which the spec admits. -/
theorem resetSatisfiesTheInvariant : Obligations.ResetSatisfiesTheInvariant :=
  initial_inv default_wellFormed 0

/-- Settles O26, by the cases of a step. -/
theorem stepKeepsTheInvariant : Obligations.StepKeepsTheInvariant := by
  intro s t hs h
  rcases step_cases h with ⟨-, rfl⟩ | ⟨k, i, -, hr, hlt, -, he⟩ | ⟨k, e, -, hr, hlt, -, rfl⟩ |
    ⟨k, hk, -, rfl⟩ | ⟨-, -, rfl⟩ | ⟨-, -, rfl⟩
  · exact acceptNext_inv hs
  · exact exec_inv (prepared_inv i hs hr hlt) hr he
  · exact raiseFault_inv (advance_inv hs hr hlt) _ _ _
  · exact leave_inv hs hk
  · exact idle_inv (endRunning_inv hs)
  · exact idle_inv hs

/-- Settles O20: transactions are accepted in IDLE alone, and no instruction and no end of a frame touches
what the environment owns. -/
theorem environmentActsOnlyBetweenFrames : Obligations.EnvironmentActsOnlyBetweenFrames := by
  intro s t hc h
  rcases step_cases h with ⟨hidle, -⟩ | ⟨k, i, -, -, -, -, he⟩ | ⟨k, e, -, -, -, -, rfl⟩ |
    ⟨k, -, -, rfl⟩ | ⟨-, -, rfl⟩ | ⟨-, -, rfl⟩
  · exact absurd hidle hc
  · have hsame := exec_sameEnvironment he
    exact ⟨hsame.keys, hsame.inputs⟩
  · exact ⟨rfl, rfl⟩
  · exact ⟨rfl, rfl⟩
  · exact ⟨endRunning_keys s, endRunning_inputs s⟩
  · exact ⟨rfl, rfl⟩

/-- Settles O27, by the cases of a step. -/
theorem configurationIsFixedForLife : Obligations.ConfigurationIsFixedForLife := by
  intro s t h
  rcases step_cases h with ⟨-, rfl⟩ | ⟨k, i, -, -, -, -, he⟩ | ⟨k, e, -, -, -, -, rfl⟩ |
    ⟨k, -, -, rfl⟩ | ⟨-, -, rfl⟩ | ⟨-, -, rfl⟩
  · exact acceptNext_cfg s
  · exact (exec_sameEnvironment he).cfg
  · rfl
  · rfl
  · exact endRunning_cfg s
  · rfl

/-- Settles O29: of the instructions only CALL and RET, of the transactions only `create` touches the
stack. -/
theorem onlyCallRetAndCreateChangeTheStack : Obligations.OnlyCallRetAndCreateChangeTheStack := by
  intro s t h hne
  rcases step_cases h with ⟨hidle, rfl⟩ | ⟨k, i, hk, -, -, hd, he⟩ | ⟨k, e, -, -, -, -, rfl⟩ |
    ⟨k, -, -, rfl⟩ | ⟨-, -, rfl⟩ | ⟨-, -, rfl⟩
  · rcases acceptNext_cases s with ⟨rest, hi, -⟩ | hsame
    · exact .inr (.inr ⟨rest, hidle, hi⟩)
    · exact absurd hsame.stack hne
  · by_cases hret : i = .ret
    · exact .inr (.inl ⟨k, hk, hret ▸ hd⟩)
    by_cases hcall : ∃ nnn, i = .call nnn
    · obtain ⟨nnn, rfl⟩ := hcall
      exact .inl ⟨k, nnn, hk, hd⟩
    exact absurd (exec_stack hret (not_exists.1 hcall) he) hne
  · exact absurd rfl hne
  · exact absurd rfl hne
  · exact absurd (endRunning_stack s) hne
  · exact absurd rfl hne

/-- Settles O31: of the instructions only Fx15 and Fx18, of the transactions only `create` touches a timer,
and only the end of a RUNNING frame ticks. -/
theorem timersChangeOnlyByLoadsTicksAndCreate : Obligations.TimersChangeOnlyByLoadsTicksAndCreate := by
  intro s t h hne
  have hchange : ¬(t.DT = s.DT ∧ t.ST = s.ST) := fun ⟨hDT, hST⟩ =>
    hne.elim (absurd hDT) (absurd hST)
  rcases step_cases h with ⟨hidle, rfl⟩ | ⟨k, i, hk, -, -, hd, he⟩ | ⟨k, e, -, -, -, -, rfl⟩ |
    ⟨k, -, -, rfl⟩ | ⟨hf, hr, rfl⟩ | ⟨-, -, rfl⟩
  · rcases acceptNext_cases s with ⟨rest, hi, -⟩ | hsame
    · exact .inr (.inr (.inr ⟨rest, hidle, hi⟩))
    · exact absurd ⟨hsame.DT, hsame.ST⟩ hchange
  · rcases exec_timers he with hsame | ⟨x, rfl, hST⟩ | ⟨x, rfl, hDT⟩
    · exact absurd hsame hchange
    · exact .inl ⟨k, x, hk, hST, hd⟩
    · exact .inr (.inl ⟨k, x, hk, hDT, hd⟩)
  · exact absurd ⟨rfl, rfl⟩ hchange
  · exact absurd ⟨rfl, rfl⟩ hchange
  · exact .inr (.inr (.inl ⟨hf, hr⟩))
  · exact absurd ⟨rfl, rfl⟩ hchange

/-- Settles O32: the instruction overwrites the other value or leaves it in place (`exec_setReg`). -/
theorem registerNotListedAsReadDoesNotMatter : Obligations.RegisterNotListedAsReadDoesNotMatter := by
  intro i r b s t hr h
  have he := exec_setReg (b.setWidth 16) hr h
  rw [setReg_v_setWidth] at he
  by_cases hw : Reg.v r ∈ regsWritten i
  · rw [if_pos hw] at he
    exact ⟨t, he, fun p _ => Part.same_refl t p, by rw [if_pos hw]⟩
  · rw [if_neg hw] at he
    refine ⟨_, he, fun p hp => same_setReg_other t _ hp, ?_⟩
    rw [if_neg hw, setReg_v_setWidth, readV_writeV_same]

/-- Settles O33: the two ends differ in I alone, and there by a multiple of 4096 (`exec_setI`). -/
theorem onlyTheLowTwelveBitsOfIMatter : Obligations.OnlyTheLowTwelveBitsOfIMatter := by
  intro i s t j hj h
  obtain ⟨j', he, hj'⟩ := exec_setI hj h
  exact ⟨_, he, fun p hp => same_setReg_other t j' hp, hj'⟩

end Sys2Proof.Machine
end

section
/-! SUPPORT. The decoder on encoded words (30_encoding R97), memory under the transactions (20_memory R64),
and the bytes a block store leaves for the next fetch (20_memory R73). -/

namespace Sys2Proof

/-- The decoder reads back every encoded word, row by row of 30_encoding R96. -/
theorem decode_encode (i : Instr) : decode (encode i) = .ok i := by
  cases i
  -- the two words of family 0
  case cls | ret => rfl
  -- the family decides alone
  case jp | call | ldI | jpV0 | seImm | sneImm | ldImm | addImm | rnd | drw =>
    simp [encode, decode]
  -- families 5 and 9: the low nibble must be 0
  case seReg | sneReg => simp [encode, decode]
  -- family 8: the low nibble decides
  case ldReg | orReg | andReg | xorReg | addReg | sub | shr | subn | shl =>
    simp [encode, decode, decode8]
  -- families E and F: the low byte decides
  case skp | sknp => simp [encode, decode, decodeE]
  case ldVxDt | ldVxK | ldDtVx | ldStVx | addIVx | ldFVx | ldBVx | ldMemVx | ldVxMem =>
    simp [encode, decode, decodeF]

/-- The two stored bytes of a legal word decode to its instruction, whatever follows (R62, R90). -/
theorem decodeBytes_of_decode {op : Word} {i : Instr} (h : decode op = .ok i) (rest : List Byte) :
    decodeBytes (highByte op :: lowByte op :: rest) = .ok (i, rest) := by
  simp [decodeBytes, h]

end Sys2Proof

namespace Sys2Proof.Machine

theorem startFrame_mem (s : State) : s.startFrame.mem = s.mem := by
  rcases startFrame_cases s with ⟨-, he⟩ | ⟨-, he⟩ <;> rw [he]

theorem keyPress_mem (s : State) (k : Fin 16) : (s.keyPress k).mem = s.mem := by
  rcases keyPress_cases s k with ⟨-, he⟩ | ⟨-, he⟩ <;> simp [he]

/-- Of the transactions only `create` and `load_program` touch memory (20_memory R64). -/
theorem accept_mem (s : State) {i : Input} (hc : i ≠ .create) (hl : ∀ bytes, i ≠ .loadProgram bytes) :
    (s.accept i).mem = s.mem := by
  cases i with
  | create => exact absurd rfl hc
  | loadProgram bytes => exact absurd rfl (hl bytes)
  | loadUnavailable => rfl
  | runOneFrame => exact startFrame_mem s
  | keyPress k => exact keyPress_mem s k
  | setKeys ks => rfl

/-- In IDLE memory stays as it is unless `create` or `load_program` is accepted. -/
theorem acceptNext_mem (s : State) (hc : ∀ rest, s.inputs ≠ .create :: rest)
    (hl : ∀ bytes rest, s.inputs ≠ .loadProgram bytes :: rest) : s.acceptNext.mem = s.mem := by
  cases hi : s.inputs with
  | nil =>
    rw [State.acceptNext, hi]
    exact startFrame_mem s
  | cons i rest =>
    rw [acceptNext_cons hi]
    exact accept_mem { s with inputs := rest } (fun h => hc rest (h ▸ hi))
      (fun bytes h => hl bytes rest (h ▸ hi))

@[simp] theorem endRunning_mem (s : State) : s.endRunning.mem = s.mem := by rw [endRunning_eq]

/-- The word fetched is the two bytes at PC (40_cycle R121). -/
theorem fetchWord_toNat (s : State) : s.fetchWord.toNat =
    (s.memRead s.PC.toNat).toNat * 256 + (s.memRead (s.PC.toNat + 1)).toNat :=
  wordOfBytes_toNat _ _

/-- After Fx55 the bytes at I, I + 1, … are `V[0]`, `V[1]`, … (43_index_memory R225). -/
theorem memRead_ldMemVx {x : RegIdx} {s t : State} (hm : Memory.wf s.cfg.font s.mem)
    (h : exec (.ldMemVx x) s = .next t) {k : RegIdx} (hk : k ≤ x) :
    t.memRead (s.I.toNat + k.val) = s.readV k := by
  cases h
  have hlen := regsUpTo_length s x
  have hk' : k.val ≤ x.val := hk
  have hx := x.isLt
  rw [memRead_storeBytes (s.regsUpTo x) s.I.toNat hm (by omega) k.val (by omega), regsUpTo_getElem]

end Sys2Proof.Machine
end

section
/-! PROOF. The statements on memory (20_memory). -/

namespace Sys2Proof.Machine

/-- Settles O2: every word is read back by `decode_encode`, and its two bytes make the word again. -/
theorem decodeOfEncodeIsTheInstruction : Obligations.DecodeOfEncodeIsTheInstruction := fun i rest =>
  ⟨decode_encode i, decodeBytes_of_decode (decode_encode i) rest⟩

/-- Settles O28: of the instructions only Fx33 and Fx55, of the transactions only `load_program` and
`create` touch memory. -/
theorem onlyStoresLoadsAndCreateChangeMemory : Obligations.OnlyStoresLoadsAndCreateChangeMemory := by
  intro s t h hne
  rcases step_cases h with ⟨hidle, rfl⟩ | ⟨k, i, hk, -, -, hd, he⟩ | ⟨k, e, -, -, -, -, rfl⟩ |
    ⟨k, -, -, rfl⟩ | ⟨-, -, rfl⟩ | ⟨-, -, rfl⟩
  · by_cases hl : ∃ bytes rest, s.inputs = .loadProgram bytes :: rest
    · obtain ⟨bytes, rest, hi⟩ := hl
      exact .inr (.inl ⟨bytes, rest, hidle, hi⟩)
    by_cases hc : ∃ rest, s.inputs = .create :: rest
    · obtain ⟨rest, hi⟩ := hc
      exact .inr (.inr ⟨rest, hidle, hi⟩)
    exact absurd (acceptNext_mem s (not_exists.1 hc) fun bytes rest hi => hl ⟨bytes, rest, hi⟩) hne
  · rcases exec_mem he with hsame | ⟨⟨x, rfl | rfl⟩, -⟩
    · exact absurd hsame hne
    · exact .inl ⟨k, x, hk, .inl hd⟩
    · exact .inl ⟨k, x, hk, .inr hd⟩
  · exact absurd rfl hne
  · exact absurd rfl hne
  · exact absurd (endRunning_mem s) hne
  · exact absurd rfl hne

/-- Settles O54: PC and I name the same bytes of memory, and these hold `V[0]` and `V[1]`. -/
theorem storeIsSeenByTheNextFetch : Obligations.StoreIsSeenByTheNextFetch := by
  intro x s t hm hx hpc h
  have hPC : t.PC = s.PC := by
    cases h
    simp
  have h0 : t.memRead s.PC.toNat = s.readV 0 := by
    rw [memRead_congr_mod t hpc.symm]
    exact memRead_ldMemVx hm h (Fin.zero_le x)
  have h1 : t.memRead (s.PC.toNat + 1) = s.readV 1 := by
    rw [memRead_congr_mod t (b := s.I.toNat + 1) (by omega)]
    exact memRead_ldMemVx hm h (k := 1) hx
  rw [fetchWord_toNat, hPC, h0, h1]

end Sys2Proof.Machine
end

section
/-! SUPPORT. The inversion of the decoder (30_encoding R97), said once, with the illegal words of R98; and
which words a row of the decode table (R96) matches. -/

namespace Sys2Proof

/-! ## The illegal words (R98) -/

/-- The illegal words by family, as the table of R98 lists them. -/
def IllegalWord (op : Word) : Prop :=
  ((fieldT op).toNat = 0x0 ∧ op ≠ 0x00E0 ∧ op ≠ 0x00EE) ∨
  ((fieldT op).toNat = 0x5 ∧ (fieldN op).toNat ≠ 0) ∨
  ((fieldT op).toNat = 0x8 ∧ (fieldN op).toNat ∈ [0x8, 0x9, 0xA, 0xB, 0xC, 0xD, 0xF]) ∨
  ((fieldT op).toNat = 0x9 ∧ (fieldN op).toNat ≠ 0) ∨
  ((fieldT op).toNat = 0xE ∧ (fieldKk op).toNat ∉ [0x9E, 0xA1]) ∨
  ((fieldT op).toNat = 0xF ∧
    (fieldKk op).toNat ∉ [0x07, 0x0A, 0x15, 0x18, 0x1E, 0x29, 0x33, 0x55, 0x65])

/-- No instruction's word is illegal. -/
theorem not_illegalWord_encode (i : Instr) : ¬ IllegalWord (encode i) := by
  unfold IllegalWord
  cases i
  case cls | ret => decide
  -- every other word shows its fields: its family has no illegal words, or its sub-function is legal
  all_goals simp [encode]

/-! ## What the decoder can answer (R97) -/

/-- Family 8: the low nibble is the sub-function, or one of the seven illegal ones. -/
theorem decode8_cases {op : Word} (ht : fieldT op = 0x8) :
    (∃ i, decode8 op = .ok i ∧ encode i = op) ∨
    (decode8 op = .error (.unknown op) ∧
      (fieldN op).toNat ∈ [0x8, 0x9, 0xA, 0xB, 0xC, 0xD, 0xF]) := by
  unfold decode8
  split
  case h_10 =>
    have hlt := (fieldN op).isLt
    refine .inr ⟨rfl, ?_⟩
    simp only [imp_false, List.mem_cons, List.not_mem_nil] at *
    omega
  all_goals
    rename_i hn
    exact .inl ⟨_, rfl, encXYN_fields _ _ op ht (BitVec.eq_of_toNat_eq hn)⟩

/-- Family E: the low byte is one of the two sub-functions, or illegal. -/
theorem decodeE_cases {op : Word} (ht : fieldT op = 0xE) :
    (∃ i, decodeE op = .ok i ∧ encode i = op) ∨
    (decodeE op = .error (.unknown op) ∧ (fieldKk op).toNat ∉ [0x9E, 0xA1]) := by
  unfold decodeE
  split
  case h_3 =>
    refine .inr ⟨rfl, ?_⟩
    simp only [imp_false] at *
    simp [*]
  all_goals
    rename_i hk
    exact .inl ⟨_, rfl, encXKK_fields _ _ op ht (BitVec.eq_of_toNat_eq hk)⟩

/-- Family F: the low byte is one of the nine sub-functions, or illegal. -/
theorem decodeF_cases {op : Word} (ht : fieldT op = 0xF) :
    (∃ i, decodeF op = .ok i ∧ encode i = op) ∨
    (decodeF op = .error (.unknown op) ∧
      (fieldKk op).toNat ∉ [0x07, 0x0A, 0x15, 0x18, 0x1E, 0x29, 0x33, 0x55, 0x65]) := by
  unfold decodeF
  split
  case h_10 =>
    refine .inr ⟨rfl, ?_⟩
    simp only [imp_false] at *
    simp [*]
  all_goals
    rename_i hk
    exact .inl ⟨_, rfl, encXKK_fields _ _ op ht (BitVec.eq_of_toNat_eq hk)⟩

/-- The inversion of `decode`: it answers the instruction whose word it was given, or the word is
illegal and the answer is UNKNOWN. -/
theorem decode_cases (op : Word) :
    (∃ i, decode op = .ok i ∧ encode i = op) ∨
    (decode op = .error (.unknown op) ∧ IllegalWord op) := by
  unfold decode IllegalWord
  split
  -- family 0: the whole word decides
  case h_1 ht =>
    split
    case isTrue h => exact .inl ⟨_, rfl, h.symm⟩
    case isFalse h0 =>
      split
      case isTrue h => exact .inl ⟨_, rfl, h.symm⟩
      case isFalse hE => exact .inr ⟨rfl, .inl ⟨ht, h0, hE⟩⟩
  -- the family decides alone
  case h_2 ht | h_3 ht | h_11 ht | h_12 ht =>
    exact .inl ⟨_, rfl, encNNN_fields _ op (BitVec.eq_of_toNat_eq ht)⟩
  case h_4 ht | h_5 ht | h_7 ht | h_8 ht | h_13 ht =>
    exact .inl ⟨_, rfl, encXKK_fields _ _ op (BitVec.eq_of_toNat_eq ht) rfl⟩
  case h_14 ht => exact .inl ⟨_, rfl, encXYN_fields _ _ op (BitVec.eq_of_toNat_eq ht) rfl⟩
  -- families 5 and 9: the low nibble must be 0
  case h_6 ht | h_10 ht =>
    split
    case isTrue hn => exact .inl ⟨_, rfl, encXYN_fields _ _ op (BitVec.eq_of_toNat_eq ht) hn⟩
    case isFalse hn =>
      have hn' : (fieldN op).toNat ≠ 0 := fun h => hn (BitVec.eq_of_toNat_eq h)
      exact .inr ⟨rfl, by simp [ht, hn']⟩
  -- families 8, E and F: the sub-decoder
  case h_9 ht =>
    exact (decode8_cases (BitVec.eq_of_toNat_eq ht)).imp_right fun ⟨he, hn⟩ =>
      ⟨he, .inr (.inr (.inl ⟨ht, hn⟩))⟩
  case h_15 ht =>
    exact (decodeE_cases (BitVec.eq_of_toNat_eq ht)).imp_right fun ⟨he, hk⟩ =>
      ⟨he, .inr (.inr (.inr (.inr (.inl ⟨ht, hk⟩))))⟩
  case h_16 =>
    have hlt := (fieldT op).isLt
    simp only [imp_false] at *
    have ht : (fieldT op).toNat = 0xF := by omega
    exact (decodeF_cases (BitVec.eq_of_toNat_eq ht)).imp_right fun ⟨he, hk⟩ =>
      ⟨he, .inr (.inr (.inr (.inr (.inr ⟨ht, hk⟩))))⟩

theorem encode_of_decode {op : Word} {i : Instr} (h : decode op = .ok i) : encode i = op := by
  rcases decode_cases op with ⟨j, hj, he⟩ | ⟨hj, -⟩
  · cases h.symm.trans hj
    exact he
  · cases h.symm.trans hj

theorem decode_eq_unknown_iff (op : Word) :
    decode op = .error (.unknown op) ↔ IllegalWord op := by
  rcases decode_cases op with ⟨i, hd, rfl⟩ | ⟨hd, hill⟩
  · simp [hd, not_illegalWord_encode]
  · exact iff_of_true hd hill

/-! ## Rows and words (R96) -/

open Laws.MatchesRow in
/-- Every instruction's word matches the row with its mnemonic. -/
theorem encode_matchesRow : ∀ i : Instr, Statement i
  | .cls => cls | .ret => ret | .jp nnn => jp nnn | .call nnn => call nnn
  | .seImm x kk => seImm x kk | .sneImm x kk => sneImm x kk | .seReg x y => seReg x y
  | .ldImm x kk => ldImm x kk | .addImm x kk => addImm x kk | .ldReg x y => ldReg x y
  | .orReg x y => orReg x y | .andReg x y => andReg x y | .xorReg x y => xorReg x y
  | .addReg x y => addReg x y | .sub x y => sub x y | .shr x y => shr x y | .subn x y => subn x y
  | .shl x y => shl x y | .sneReg x y => sneReg x y | .ldI nnn => ldI nnn | .jpV0 nnn => jpV0 nnn
  | .rnd x kk => rnd x kk | .drw x y n => drw x y n | .skp x => skp x | .sknp x => sknp x
  | .ldVxDt x => ldVxDt x | .ldVxK x => ldVxK x | .ldDtVx x => ldDtVx x | .ldStVx x => ldStVx x
  | .addIVx x => addIVx x | .ldFVx x => ldFVx x | .ldBVx x => ldBVx x | .ldMemVx x => ldMemVx x
  | .ldVxMem x => ldVxMem x

/-- A word that decodes matches the row of its instruction, since it is that instruction's encoding. -/
theorem exists_row_of_decode {op : Word} {i : Instr} (h : decode op = .ok i) :
    ∃ r ∈ tableRows, r.matchesWord op ∧ r.mnemonic = mnemonicOf i := by
  obtain ⟨r, hr, hmn, hm⟩ := encode_matchesRow i
  exact ⟨r, hr, encode_of_decode h ▸ hm, hmn⟩

theorem fieldT_of_matchesWord {r : TableRow} {op : Word} (h : r.matchesWord op)
    (hm : fieldT r.mask = 0xF) : fieldT r.bits = fieldT op := by
  rw [← h, fieldT, BitVec.extractLsb'_and, ← fieldT, ← fieldT, hm, nibble_and_ones]

theorem fieldN_of_matchesWord {r : TableRow} {op : Word} (h : r.matchesWord op)
    (hm : fieldN r.mask = 0xF) : fieldN r.bits = fieldN op := by
  rw [← h, fieldN, BitVec.extractLsb'_and, ← fieldN, ← fieldN, hm, nibble_and_ones]

theorem fieldKk_of_matchesWord {r : TableRow} {op : Word} (h : r.matchesWord op)
    (hm : fieldKk r.mask = 0xFF) : fieldKk r.bits = fieldKk op := by
  rw [← h, fieldKk, BitVec.extractLsb'_and, ← fieldKk, ← fieldKk, hm]
  exact BitVec.and_allOnes

/-- Every row fixes the family, and in the families with illegal words also the field that
decides (R95). -/
theorem tableRows_masks : ∀ r ∈ tableRows, fieldT r.mask = 0xF ∧
    ((fieldT r.bits).toNat = 0x0 → r.mask = 0xFFFF) ∧
    ((fieldT r.bits).toNat ∈ [0x5, 0x8, 0x9] → fieldN r.mask = 0xF) ∧
    ((fieldT r.bits).toNat ∈ [0xE, 0xF] → fieldKk r.mask = 0xFF) := by decide

/-- The fixed bits of a row are themselves a legal word. -/
theorem not_illegalWord_bits : ∀ r ∈ tableRows, ¬ IllegalWord r.bits := by
  unfold IllegalWord
  decide

/-- A word that matches a row is legal: it agrees with the row's fixed bits, which are legal, in the
fields that R98 looks at. -/
theorem not_illegalWord_of_matchesWord {r : TableRow} {op : Word} (hr : r ∈ tableRows)
    (h : r.matchesWord op) : ¬ IllegalWord op := by
  intro hill
  obtain ⟨hmT, hm0, hmN, hmK⟩ := tableRows_masks r hr
  have hT := fieldT_of_matchesWord h hmT
  rw [hT] at hm0 hmN hmK
  have h0 (ht : (fieldT op).toNat = 0x0) : op = r.bits := by
    rw [← h, hm0 ht, mask_FFFF]
  have hN (ht : (fieldT op).toNat ∈ [0x5, 0x8, 0x9]) : fieldN r.bits = fieldN op :=
    fieldN_of_matchesWord h (hmN ht)
  have hK (ht : (fieldT op).toNat ∈ [0xE, 0xF]) : fieldKk r.bits = fieldKk op :=
    fieldKk_of_matchesWord h (hmK ht)
  apply not_illegalWord_bits r hr
  unfold IllegalWord at hill ⊢
  rw [hT]
  rcases hill with ⟨ht, hne⟩ | ⟨ht, hn⟩ | ⟨ht, hn⟩ | ⟨ht, hn⟩ | ⟨ht, hk⟩ | ⟨ht, hk⟩
  · exact .inl ⟨ht, h0 ht ▸ hne⟩
  · exact .inr (.inl ⟨ht, hN (by simp [ht]) ▸ hn⟩)
  · exact .inr (.inr (.inl ⟨ht, hN (by simp [ht]) ▸ hn⟩))
  · exact .inr (.inr (.inr (.inl ⟨ht, hN (by simp [ht]) ▸ hn⟩)))
  · exact .inr (.inr (.inr (.inr (.inl ⟨ht, hK (by simp [ht]) ▸ hk⟩))))
  · exact .inr (.inr (.inr (.inr (.inr ⟨ht, hK (by simp [ht]) ▸ hk⟩))))

/-- Two different rows fix some common bit differently (R97). -/
theorem tableRows_disjoint : ∀ r ∈ tableRows, ∀ r' ∈ tableRows,
    r.bits &&& r'.mask = r'.bits &&& r.mask → r = r' := by decide

theorem row_unique {op : Word} {r r' : TableRow} (hr : r ∈ tableRows) (hr' : r' ∈ tableRows)
    (h : r.matchesWord op) (h' : r'.matchesWord op) : r = r' :=
  tableRows_disjoint r hr r' hr' (by
    rw [← h, ← h', BitVec.and_assoc, BitVec.and_assoc, BitVec.and_comm r.mask])

end Sys2Proof
end

section
/-! PROOF. The statements on encoding (30_encoding). -/

namespace Sys2Proof.Machine

/-- Settles O3: it is the legal case of `decode_cases`. -/
theorem legalWordIsTheEncodingOfItsInstruction :
    Obligations.LegalWordIsTheEncodingOfItsInstruction := fun _ _ h =>
  encode_of_decode h

/-- Settles O4: a word that matches a row is legal, so it decodes, and the row of what it decodes to is
the one row that matches it. -/
theorem decodeFollowsTheTableRows : Obligations.DecodeFollowsTheTableRows := by
  refine ⟨rfl, fun op i => exists_row_of_decode, fun op r hr hm => ?_⟩
  rcases decode_cases op with ⟨i, hd, -⟩ | ⟨-, hill⟩
  · obtain ⟨r', hr', hm', hmn⟩ := exists_row_of_decode hd
    exact ⟨i, hd, row_unique hr' hr hm' hm ▸ hmn.symm⟩
  · exact absurd hill (not_illegalWord_of_matchesWord hr hm)

/-- Settles O5: the rows are disjoint by `row_unique`, and a word that decodes would match a row. -/
theorem rowsAreDisjointAndTheRestIsUnknown : Obligations.RowsAreDisjointAndTheRestIsUnknown := by
  refine ⟨fun op r r' => row_unique, fun op hno => ?_⟩
  rcases decode_cases op with ⟨i, hd, -⟩ | ⟨hd, -⟩
  · obtain ⟨r, hr, hm, -⟩ := exists_row_of_decode hd
    exact absurd hm (hno r hr)
  · exact hd

/-- Settles O6: the fields that `IllegalWord` names are the quotients and remainders of the statement. -/
theorem illegalWordsAreThoseOfTheFamilyTable : Obligations.IllegalWordsAreThoseOfTheFamilyTable := by
  intro op
  rw [decode_eq_unknown_iff, IllegalWord, fieldT_toNat, fieldN_toNat, fieldKk_toNat]

/-- Settles O1: the decoder run on the twelve words. -/
theorem specWordsDecodeToTheirInstructions : Obligations.SpecWordsDecodeToTheirInstructions := by
  unfold Obligations.SpecWordsDecodeToTheirInstructions
  decide

end Sys2Proof.Machine
end

section
/-! SUPPORT. The run state and the control state under an instruction and a transaction (40_cycle R120,
R139), and the loop of a frame against the steps that take it apart (R120, R130). -/

namespace Sys2Proof

/-- What two bytes decode to is what their word decodes to (20_memory R62, 30_encoding R90). -/
theorem decode_of_decodeBytes {hi lo : Byte} {i : Instr} (h : decodeBytes [hi, lo] = .ok (i, [])) :
    decode (wordOfBytes hi lo) = .ok i := by
  simp only [decodeBytes] at h
  split at h
  · rename_i j hj
    cases h
    exact hj
  · cases h

end Sys2Proof

namespace Sys2Proof.Machine

/-! ## An instruction -/

/-- The running instruction was fetched from where PC stood before the advance (40_cycle R122). -/
@[simp] theorem prepared_fetchPc (s : State) (k : Nat) (i : Instr) : (s.prepared k i).fetchPc = s.PC :=
  BitVec.add_sub_cancel s.PC 2

/-- An instruction leaves the run state and the control state alone, begins the wait of Fx0A, or raises a
stack fault that records its own word and address (10_state R38, 60_exceptions R282). -/
theorem exec_run_cases {i : Instr} {s t : State} (h : exec i s = .next t) :
    (t.run = s.run ∧ t.ctl = s.ctl) ∨
    (∃ x, i = .ldVxK x ∧ t = { s with waitReg := x, run := .waitingForKey }) ∨
    (∃ c, t = s.raiseFault c (encode i) s.fetchPc) := by
  cases i
  case ret =>
    rcases execRet_cases h with ⟨-, he⟩ | ⟨_, _, -, rfl⟩
    · exact .inr (.inr ⟨_, he⟩)
    · exact .inl ⟨rfl, rfl⟩
  case call =>
    rcases execCall_cases h with ⟨-, he⟩ | ⟨-, rfl⟩
    · exact .inr (.inr ⟨_, he⟩)
    · exact .inl ⟨rfl, rfl⟩
  all_goals cases h
  case ldVxK x => exact .inr (.inl ⟨x, rfl, rfl⟩)
  all_goals exact .inl (by simp)

/-! ## A transaction -/

/-- Of the transactions only `create` and the key press that a wait is for change the run state
(40_cycle R136, R139). -/
theorem accept_run (s : State) {i : Input} (hc : i ≠ .create)
    (hk : s.run = .waitingForKey → ∀ key, i ≠ .keyPress key) : (s.accept i).run = s.run := by
  cases i with
  | create => exact absurd rfl hc
  | loadProgram bytes =>
    rcases loadProgram_cases s bytes with ⟨-, he⟩ | ⟨-, he⟩ | ⟨-, -, he⟩ <;> simp [State.accept, he]
  | loadUnavailable => rfl
  | runOneFrame => rcases startFrame_cases s with ⟨-, he⟩ | ⟨-, he⟩ <;> simp [State.accept, he]
  | keyPress key =>
    rcases keyPress_cases s key with ⟨hw, -⟩ | ⟨-, he⟩
    · exact absurd rfl (hk hw key)
    · simp [State.accept, he]
  | setKeys ks => rfl

/-- In IDLE the run state changes by `create` and by the key press that a wait is for alone. -/
theorem acceptNext_run_cases (s : State) (h : s.acceptNext.run ≠ s.run) :
    (∃ rest, s.inputs = .create :: rest) ∨
    (∃ key rest, s.inputs = .keyPress key :: rest ∧ s.run = .waitingForKey) := by
  cases hi : s.inputs with
  | nil =>
    rw [State.acceptNext, hi] at h
    exact absurd (accept_run s (i := .runOneFrame) nofun nofun) h
  | cons i rest =>
    rw [acceptNext_cons hi] at h
    by_cases hc : i = .create
    · exact .inl ⟨rest, hc ▸ rfl⟩
    by_cases hk : s.run = .waitingForKey ∧ ∃ key, i = .keyPress key
    · obtain ⟨hw, key, rfl⟩ := hk
      exact .inr ⟨key, rest, rfl, hw⟩
    · exact absurd (accept_run { s with inputs := rest } hc fun hw key he => hk ⟨hw, key, he⟩) h

/-- A key press that a wait is for (40_cycle R136). -/
theorem keyPress_of_waiting {s : State} (h : s.run = .waitingForKey) (k : Fin 16) :
    s.keyPress k =
      { (s.writeV s.waitReg (BitVec.ofNat 8 k.val)).markWritten [.v s.waitReg] with
        keys := s.keys.set k.val true
        run := .running } :=
  ((keyPress_cases s k).resolve_right fun hn => hn.1 h).2

/-- A key press that no wait is for (40_cycle R136). -/
theorem keyPress_of_not_waiting {s : State} (h : s.run ≠ .waitingForKey) (k : Fin 16) :
    s.keyPress k = { s with keys := s.keys.set k.val true } :=
  ((keyPress_cases s k).resolve_left fun hw => h hw.1).2

/-- A key press completes a pending wait: the block runs on and `V[wait_reg]` holds the key. -/
theorem keyPress_completes_wait {s : State} (h : s.run = .waitingForKey) (k : Fin 16) :
    (s.keyPress k).run = .running ∧ ((s.keyPress k).readV s.waitReg).toNat = k.val := by
  have hkey : (BitVec.ofNat 8 k.val).toNat = k.val := Nat.mod_eq_of_lt (by omega)
  rw [keyPress_of_waiting h]
  exact ⟨rfl, (congrArg BitVec.toNat (readV_writeV_same s s.waitReg _)).trans hkey⟩

/-- In IDLE with a frame next, the step takes it off the schedule and starts it. -/
theorem step_runOneFrame {s : State} {rest : List Input} (hc : s.ctl = .idle)
    (hi : s.inputs = .runOneFrame :: rest) : step s = .next { s with inputs := rest }.startFrame := by
  rw [step_idle hc, acceptNext_cons hi, State.accept]

/-- In IDLE with a key press next, the step takes it off the schedule and accepts it. -/
theorem step_keyPress {s : State} {k : Fin 16} {rest : List Input} (hc : s.ctl = .idle)
    (hi : s.inputs = .keyPress k :: rest) : step s = .next ({ s with inputs := rest }.keyPress k) := by
  rw [step_idle hc, acceptNext_cons hi, State.accept]

/-! ## The end of a frame -/

@[simp] theorem endRunning_fb (s : State) : s.endRunning.fb = s.fb := by rw [endRunning_eq]

/-- The tick of both timers (40_cycle R131). -/
theorem endRunning_timers (s : State) :
    s.endRunning.DT = tickTimer s.DT ∧ s.endRunning.ST = tickTimer s.ST := by
  by_cases h : tickTimer s.ST = 0
  · rw [endRunning_of_silent h]
    exact ⟨rfl, rfl⟩
  · rw [endRunning_of_sounding h]
    exact ⟨rfl, rfl⟩

/-- The tone call by the new ST, then the present (40_cycle R132, R133). -/
theorem endRunning_calls (s : State) :
    s.endRunning.tone = (if s.endRunning.ST.toNat > 0 then some s.cfg.toneFreq else none) ∧
    s.endRunning.outputs = s.outputs ++
      [if s.endRunning.ST.toNat > 0 then .toneStart s.cfg.toneFreq else .toneStop, .fbPresent s.fb] := by
  rw [(endRunning_timers s).2]
  by_cases h : tickTimer s.ST = 0
  · rw [endRunning_of_silent h, h]
    exact ⟨rfl, rfl⟩
  · have hpos : (tickTimer s.ST).toNat > 0 :=
      Nat.pos_of_ne_zero fun h0 => h (BitVec.eq_of_toNat_eq h0)
    rw [endRunning_of_sounding h, if_pos hpos, if_pos hpos]
    exact ⟨rfl, rfl⟩

@[simp] theorem endFrame_ctl (s : State) : s.endFrame.ctl = .idle := by
  by_cases h : s.run = .running
  · rw [endFrame_of_running h]
  · rw [endFrame_of_paused h]

/-- The end of a frame does not depend on the control state, which it overwrites. -/
theorem endFrame_setCtl (s : State) (c : Control) : { s with ctl := c }.endFrame = s.endFrame := by
  by_cases hr : s.run = .running
  · rw [endFrame_of_running hr, endFrame_of_running (s := { s with ctl := c }) hr]
    by_cases h : tickTimer s.ST = 0
    · rw [endRunning_of_silent h, endRunning_of_silent (s := { s with ctl := c }) h]
    · rw [endRunning_of_sounding h, endRunning_of_sounding (s := { s with ctl := c }) h]
  · rw [endFrame_of_paused hr, endFrame_of_paused (s := { s with ctl := c }) hr]

/-- A paused block that is already in IDLE has no frame left to end (40_cycle R134, R138). -/
theorem endFrame_of_paused_idle {s : State} (hr : s.run ≠ .running) (hc : s.ctl = .idle) :
    s.endFrame = s := by
  rw [endFrame_of_paused hr, ← hc]

/-! ## The loop of a frame -/

/-- An instruction step does not depend on the control state, which the advance overwrites. -/
theorem instrStep_setCtl (k : Nat) (s : State) (c : Control) :
    instrStep k { s with ctl := c } = instrStep k s := rfl

/-- An instruction step answers a next state of the same configuration; the frame goes on, or a fault has
ended it (40_cycle R125, 60_exceptions R283). -/
theorem instrStep_cases (k : Nat) (s : State) :
    ∃ t, instrStep k s = .next t ∧ t.cfg = s.cfg ∧
      (t.ctl = .inFrame (k + 1) ∨ t.run = .halted ∧ t.ctl = .idle) := by
  rw [instrStep]
  split
  · exact ⟨_, rfl, rfl, .inr ⟨rfl, rfl⟩⟩
  · rename_i i hd
    obtain ⟨t, he⟩ := exec_answers_next i (s.prepared k i)
    refine ⟨t, he, (exec_sameEnvironment he).cfg, ?_⟩
    rcases exec_run_cases he with ⟨-, hctl⟩ | ⟨x, -, rfl⟩ | ⟨c, rfl⟩
    · exact .inl hctl
    · exact .inl rfl
    · exact .inr ⟨rfl, rfl⟩

theorem runInstrs_of_paused {s : State} (h : s.run ≠ .running) (fuel k : Nat) :
    runInstrs fuel k s = .next s := by
  cases fuel with
  | zero => rfl
  | succ fuel => exact if_neg h

theorem runInstrs_succ {s t : State} {k : Nat} (hr : s.run = .running) (h : instrStep k s = .next t)
    (fuel : Nat) : runInstrs (fuel + 1) k s = runInstrs fuel (k + 1) t := by
  simp [runInstrs, hr, h]

/-- Two steps leave the loop and end the frame. -/
theorem run_leave {s : State} {k : Nat} (h : ¬(s.run = .running ∧ k < s.cfg.speed)) :
    Host.Core.run core 2 { s with ctl := .inFrame k } = .next s.endFrame :=
  calc Host.Core.run core 2 { s with ctl := .inFrame k }
    _ = Host.Core.run core 1 { s with ctl := .frameEnd } := run_succ 1 (step_leave rfl h)
    _ = .next { s with ctl := .frameEnd }.endFrame := run_succ 0 (step_frameEnd rfl)
    _ = .next s.endFrame := by rw [endFrame_setCtl]

/-- While the block waits for a key a frame starts, is left at once and ends without effect (40_cycle
R138). -/
theorem run_startFrame_of_waiting {s : State} (hr : s.run = .waitingForKey) (hc : s.ctl = .idle) :
    Host.Core.run core 2 s.startFrame = .next s := by
  have hne : s.run ≠ .running := hr ▸ nofun
  have hstart : s.startFrame = { s with ctl := .inFrame 0 } := if_neg (hr ▸ nofun)
  rw [hstart]
  exact (run_leave fun h => hne h.1).trans (congrArg _ (endFrame_of_paused_idle hne hc))

/-- The loop of R130 and the steps from IN_FRAME(k): with a budget of `fuel` more instructions, at most
`fuel + 2` steps reach the state in which the loop and then the end of the frame leave the block. -/
theorem run_eq_runInstrs (fuel k : Nat) (s : State) (hb : k + fuel = s.cfg.speed) :
    ∃ n t, n ≤ fuel + 2 ∧ runInstrs fuel k s = .next t ∧
      Host.Core.run core n { s with ctl := .inFrame k } = .next t.endFrame := by
  induction fuel generalizing k s with
  | zero => exact ⟨2, s, le_rfl, rfl, run_leave (by omega)⟩
  | succ fuel ih =>
    by_cases hr : s.run = .running
    · obtain ⟨u, hu, hcfg, hctl⟩ := instrStep_cases k s
      have hk : k < s.cfg.speed := by omega
      have hstep : step { s with ctl := .inFrame k } = .next u :=
        (step_instr (s := { s with ctl := .inFrame k }) rfl hr hk).trans
          ((instrStep_setCtl k s _).trans hu)
      rw [runInstrs_succ hr hu]
      rcases hctl with hin | ⟨hhalt, hidle⟩
      · obtain ⟨n, t, hn, hloop, hrun⟩ := ih (k + 1) u (by rw [hcfg]; omega)
        rw [← hin] at hrun
        exact ⟨n + 1, t, by omega, hloop, (run_succ n hstep).trans hrun⟩
      · have hne : u.run ≠ .running := hhalt ▸ nofun
        exact ⟨1, u, by omega, runInstrs_of_paused hne _ _,
          (run_succ 0 hstep).trans (congrArg _ (endFrame_of_paused_idle hne hidle).symm)⟩
    · exact ⟨2, s, by omega, runInstrs_of_paused hr _ _, run_leave fun h => hr h.1⟩

theorem runOneFrame_of_halted {s : State} (h : s.run = .halted) : runOneFrame s = .next s := if_pos h

theorem runOneFrame_of_runInstrs {s t : State} (h : s.run ≠ .halted)
    (hl : runInstrs s.cfg.speed 0 s = .next t) : runOneFrame s = .next t.endFrame := by
  simp [runOneFrame, h, hl]

/-- The atomic frame and the steps from its start: at most `SPEED + 2` steps reach the one state in which
the atomic frame leaves the block, in IDLE again (40_cycle R120, R130). -/
theorem run_startFrame_eq_runOneFrame {s : State} (hc : s.ctl = .idle) :
    ∃ n t, n ≤ s.cfg.speed + 2 ∧ runOneFrame s = .next t ∧ t.ctl = .idle ∧
      Host.Core.run core n s.startFrame = .next t := by
  rcases startFrame_cases s with ⟨hr, he⟩ | ⟨hr, he⟩
  · exact ⟨0, s, Nat.zero_le _, runOneFrame_of_halted hr, hc, congrArg _ he⟩
  · obtain ⟨n, t, hn, hloop, hrun⟩ := run_eq_runInstrs s.cfg.speed 0 s (Nat.zero_add _)
    exact ⟨n, t.endFrame, hn, runOneFrame_of_runInstrs hr hloop, endFrame_ctl t, he ▸ hrun⟩

end Sys2Proof.Machine
end

section
/-! PROOF. The statements on the cycle: the fetch and the instruction step, frames, the key wait and the
run state (40_cycle). -/

namespace Sys2Proof.Machine

/-- Settles O7: an address and its remainder modulo 4096 name the same byte. -/
theorem fetchIsBigEndianModulo4096 : Obligations.FetchIsBigEndianModulo4096 := by
  intro s
  rw [fetchWord_toNat, memRead_congr_mod s (Nat.mod_mod s.PC.toNat 4096),
    memRead_congr_mod s (Nat.mod_mod (s.PC.toNat + 1) 4096)]

/-- Settles O8: the two bytes at PC are the fetched word, and `prepared_eq` writes out what `exec` runs
on. -/
theorem stepRunsTheDecodedInstruction : Obligations.StepRunsTheDecodedInstruction := by
  intro s k i hc hr hk hd
  have hd' : decode s.fetchWord = .ok i := decode_of_decodeBytes hd
  rw [step_instr hc hr hk, instrStep, hd', ← prepared_eq]

/-- Settles O12, by the cases of a step: outside IDLE only Fx0A and a fault change the run state. -/
theorem runStateTransitionsAreComplete : Obligations.RunStateTransitionsAreComplete := by
  intro s t h hne
  rcases step_cases h with ⟨hidle, rfl⟩ | ⟨k, i, hk, hr, -, hd, he⟩ | ⟨k, e, hk, hr, -, -, rfl⟩ |
    ⟨k, -, -, rfl⟩ | ⟨-, -, rfl⟩ | ⟨-, -, rfl⟩
  · rcases acceptNext_run_cases s hne with ⟨rest, hi⟩ | ⟨key, rest, hi, hw⟩
    · refine .inr (.inr (.inr ⟨rest, hidle, hi, ?_⟩))
      rw [acceptNext_cons hi]
      rfl
    · refine .inr (.inl ⟨key, rest, hidle, hi, hw, ?_⟩)
      rw [acceptNext_cons hi]
      exact keyPress_completes_wait (s := { s with inputs := rest }) hw key
  · rcases exec_run_cases he with ⟨hrun, -⟩ | ⟨x, rfl, rfl⟩ | ⟨c, rfl⟩
    · exact absurd hrun hne
    · exact .inl ⟨k, x, hk, hr, hd, rfl, rfl⟩
    · refine .inr (.inr (.inl ⟨k, c, hk, hr, rfl, ?_, rfl⟩))
      rw [raiseFault_fault, encode_of_decode hd, prepared_fetchPc]
  · exact .inr (.inr (.inl ⟨k, _, hk, hr, rfl, rfl, rfl⟩))
  · exact absurd rfl hne
  · exact absurd (by rw [endRunning_eq]) hne
  · exact absurd rfl hne

/-- Settles O15: the timers and the two calls are those of the tick, and the rest of the end of a frame is
`endRunning_eq`. -/
theorem frameEndTicksTonesAndPresents : Obligations.FrameEndTicksTonesAndPresents := by
  intro s hc
  refine ⟨fun hr => ⟨{ s.endRunning with ctl := .idle }, ?_, ?_⟩, fun hr => ?_⟩
  · rw [step_frameEnd hc, endFrame_of_running hr]
  · obtain ⟨hDT, hST⟩ := endRunning_timers s
    obtain ⟨htone, houtputs⟩ := endRunning_calls s
    refine ⟨?_, ?_, htone, houtputs, rfl, fun p hp => ?_⟩
    · rw [hDT, tickTimer_toNat]
    · rw [hST, tickTimer_toNat]
    · rw [endRunning_eq]
      cases p
      case dt | st | tone | outputs | ctl => simp at hp
      case random => exact ⟨rfl, rfl⟩
      all_goals rfl
  · rw [step_frameEnd hc, endFrame_of_paused hr]

/-- Settles O17: the first step starts the frame, and `run_startFrame_eq_runOneFrame` says where it
ends. -/
theorem steppedFrameEqualsAtomicFrame : Obligations.SteppedFrameEqualsAtomicFrame := by
  intro s rest hc hi
  obtain ⟨n, u, hn, hatomic, hidle, hrun⟩ :=
    run_startFrame_eq_runOneFrame (s := { s with inputs := rest }) hc
  have hstepped := (run_succ n (step_runOneFrame hc hi)).trans hrun
  refine ⟨⟨n + 1, by omega, Nat.succ_le_succ hn, hstepped.trans hatomic.symm⟩, fun t ht => ?_⟩
  cases hatomic.symm.trans ht
  exact hidle

/-- Settles O18: in HALTED the frame does not start; while waiting the loop is left at once. -/
theorem frameWhileWaitingOrHaltedDoesNothing : Obligations.FrameWhileWaitingOrHaltedDoesNothing := by
  intro s rest hc hi
  have hstart := step_runOneFrame hc hi
  refine ⟨fun hr => ?_, fun hr => ?_⟩
  · rw [hstart, State.startFrame, if_pos hr]
  · exact (run_succ 2 hstart).trans (run_startFrame_of_waiting (s := { s with inputs := rest }) hr hc)

/-- Settles O19, by the two cases of a key press. -/
theorem keyPressCompletesOnlyAPendingWait : Obligations.KeyPressCompletesOnlyAPendingWait := by
  intro s k rest hc hi
  refine ⟨fun hw => ⟨_, step_keyPress hc hi, ?_⟩, fun hw => ⟨_, step_keyPress hc hi, fun p hp => ?_⟩⟩
  · obtain ⟨hrun, hkey⟩ := keyPress_completes_wait (s := { s with inputs := rest }) hw k
    refine ⟨hkey, hrun, fun p hp => ?_⟩
    rw [keyPress_of_waiting (s := { s with inputs := rest }) hw]
    cases p
    case run | keys | inputs | written => simp at hp
    case v x =>
      have hx : x ≠ s.waitReg := fun e => hp (by simp [e])
      exact readV_writeV_other s _ hx
    case random => exact ⟨rfl, rfl⟩
    all_goals rfl
  · rw [keyPress_of_not_waiting (s := { s with inputs := rest }) hw]
    cases p
    case keys | inputs => simp at hp
    case random => exact ⟨rfl, rfl⟩
    all_goals rfl

/-- Settles O30: of the instructions only 00E0 and Dxyn, of the transactions only `create` touches the
grid. -/
theorem onlyClsDrwAndCreateChangeTheGrid : Obligations.OnlyClsDrwAndCreateChangeTheGrid := by
  intro s t h hne
  rcases step_cases h with ⟨hidle, rfl⟩ | ⟨k, i, hk, -, -, hd, he⟩ | ⟨k, e, -, -, -, -, rfl⟩ |
    ⟨k, -, -, rfl⟩ | ⟨-, -, rfl⟩ | ⟨-, -, rfl⟩
  · rcases acceptNext_cases s with ⟨rest, hi, -⟩ | hsame
    · exact .inr (.inr ⟨rest, hidle, hi⟩)
    · exact absurd hsame.fb hne
  · rcases exec_fb he with hsame | ⟨rfl, -⟩ | ⟨x, y, n, rfl, -⟩
    · exact absurd hsame hne
    · exact .inl ⟨k, hk, hd⟩
    · exact .inr (.inl ⟨k, x, y, n, hk, hd⟩)
  · exact absurd rfl hne
  · exact absurd rfl hne
  · exact absurd (endRunning_fb s) hne
  · exact absurd rfl hne

end Sys2Proof.Machine
end

section
/-! SUPPORT. Control flow (41_flow): the equations of CALL, RET and the skips, and what a new PC, a new
stack and a fault leave unchanged. -/

namespace Sys2Proof.Machine

/-! ## Frames -/

theorem unchangedBut_setPC (s : State) (v : Word) : s.unchangedBut { s with PC := v } [.pc] := by
  intro p hp
  cases p
  case pc => simp at hp
  case random => exact ⟨rfl, rfl⟩
  all_goals rfl

theorem unchangedBut_setPC_setStack (s : State) (v : Word) (vs : List Word) :
    s.unchangedBut { s with PC := v, stack := vs } [.pc, .stack] := by
  intro p hp
  cases p
  case pc | stack => simp at hp
  case random => exact ⟨rfl, rfl⟩
  all_goals rfl

/-- A fault changes its four parts alone; PC keeps the advance (60_exceptions R283, R285). -/
theorem unchangedBut_raiseFault (s : State) (c : FaultCause) (op a : Word) :
    s.unchangedBut (s.raiseFault c op a) faultParts := by
  intro p hp
  cases p
  case run | fault | ctl | outputs => simp [faultParts] at hp
  case random => exact ⟨rfl, rfl⟩
  all_goals rfl

theorem unchangedBut_skipIf (s : State) (c : Bool) : s.unchangedBut (s.skipIf c) [.pc] := by
  cases c with
  | false => exact unchangedBut_setPC s s.PC
  | true => exact unchangedBut_setPC s (s.PC + 2)

/-! ## Addresses (30_encoding R93, 40_cycle R122) -/

theorem zext16_toNat (nnn : Addr) : (zext16 nnn).toNat = nnn.toNat :=
  BitVec.toNat_setWidth_of_le (by decide)

theorem fetchPc_of_PC {s : State} {a : Word} (h : s.PC = a + 2) : s.fetchPc = a := by
  rw [State.fetchPc, h]
  exact BitVec.add_sub_cancel a 2

/-- `nnn + V[0]` is at most 0x10FE (41_flow R158). -/
theorem jpV0_target_toNat (nnn : Addr) (v : Byte) :
    (BitVec.ofNat 16 (nnn.toNat + v.toNat)).toNat = nnn.toNat + v.toNat := by
  have hn := nnn.isLt
  have hv := v.isLt
  rw [BitVec.toNat_ofNat, Nat.mod_eq_of_lt (by omega)]

/-! ## CALL and RET (41_flow R151, R153) -/

/-- A stack is not full when it is unbounded or does not hold `STACK_DEPTH` entries. -/
theorem stackFull_eq_false {s : State} (h : ∀ d, s.cfg.stackDepth = some d → s.stack.length ≠ d) :
    s.stackFull = false :=
  Bool.eq_false_iff.2 fun hf => h _ ((stackFull_iff s).1 hf) rfl

theorem exec_call_of_full {s : State} (nnn : Addr) (h : s.stackFull = true) :
    exec (.call nnn) s =
      .next (s.raiseFault .stackOverflow (encode (.call nnn)) s.fetchPc) := if_pos h

theorem exec_call_of_not_full {s : State} (nnn : Addr) (h : s.stackFull = false) :
    exec (.call nnn) s = .next { s with PC := zext16 nnn, stack := s.stack ++ [s.PC] } :=
  if_neg (Bool.eq_false_iff.1 h)

theorem exec_ret_of_nil {s : State} (h : s.stack = []) :
    exec .ret s = .next (s.raiseFault .stackUnderflow (encode .ret) s.fetchPc) := by
  simp only [exec, execRet, h, List.getLast?_nil]

theorem exec_ret_of_concat {s : State} {below : List Word} {v : Word} (h : s.stack = below ++ [v]) :
    exec .ret s = .next { s with PC := v, stack := below } := by
  simp only [exec, execRet, h, List.getLast?_concat, List.dropLast_concat]

/-- The word of a CALL is `2nnn` (30_encoding R96). -/
theorem encode_call_toNat (nnn : Addr) : (encode (.call nnn)).toNat = 0x2000 + nnn.toNat :=
  encNNN_toNat 0x2 nnn

/-! ## Skips (41_flow R150) -/

/-- A skip on a condition `p` of an instruction fetched at `a` goes to `a + 4` or `a + 2`. -/
theorem skipIf_advances {s : State} {a : Word} {c : Bool} {p : Prop} [Decidable p]
    (hPC : s.PC = a + 2) (hc : c = true ↔ p) :
    (s.skipIf c).PC = (if p then a + 4 else a + 2) ∧ s.unchangedBut (s.skipIf c) [.pc] := by
  refine ⟨?_, unchangedBut_skipIf s c⟩
  have h4 : a + 2 + 2 = a + 4 := BitVec.add_assoc a 2 2
  simp only [skipIf_PC, hc, hPC, h4]

/-- The test of a skip if equal compares the unsigned values (R154, R156). -/
theorem byte_beq_iff_toNat_eq (b c : Byte) : (b == c) = true ↔ b.toNat = c.toNat :=
  beq_iff_eq.trans BitVec.toNat_inj.symm

/-- The test of a skip if not equal compares the unsigned values (R155, R157). -/
theorem byte_bne_iff_toNat_ne (b c : Byte) : (b != c) = true ↔ b.toNat ≠ c.toNat :=
  bne_iff_ne.trans (not_congr BitVec.toNat_inj.symm)

end Sys2Proof.Machine
end

section
/-! PROOF. The statements on control flow (41_flow). -/

namespace Sys2Proof.Machine

/-- Settles O34, by instruction: RET and CALL split on their stack test, every other instruction of the
family changes PC alone. -/
theorem flowInstructionsChangeNothingElse : Obligations.FlowInstructionsChangeNothingElse := by
  intro i s t hf h
  cases i
  case ret =>
    rcases execRet_cases h with ⟨hs, rfl⟩ | ⟨below, v, hs, rfl⟩
    · rw [State.mayWrite, if_pos hs]
      exact unchangedBut_raiseFault s _ _ _
    · rw [State.mayWrite, if_neg (hs ▸ List.concat_ne_nil v below)]
      exact unchangedBut_setPC_setStack s v below
  case call nnn =>
    rcases execCall_cases h with ⟨hs, rfl⟩ | ⟨hs, rfl⟩
    · rw [State.mayWrite, if_pos hs]
      exact unchangedBut_raiseFault s _ _ _
    · rw [State.mayWrite, if_neg (Bool.eq_false_iff.1 hs)]
      exact unchangedBut_setPC_setStack s _ _
  case jp | jpV0 =>
    cases h
    exact unchangedBut_setPC s _
  case seImm | sneImm | seReg | sneReg =>
    cases h
    exact unchangedBut_skipIf s _
  all_goals cases hf

/-- Settles O39, by the two equations of CALL. -/
theorem callPushesTheAdvancedPcOrOverflows : Obligations.CallPushesTheAdvancedPcOrOverflows := by
  intro nnn s a hPC
  refine ⟨fun hroom => ?_, fun d hd hlen => ?_⟩
  · have hexec := exec_call_of_not_full nnn (stackFull_eq_false hroom)
    rw [hPC] at hexec
    exact ⟨_, hexec, rfl, zext16_toNat nnn, unchangedBut_setPC_setStack s _ _⟩
  · have hexec := exec_call_of_full nnn ((stackFull_iff s).2 (hlen ▸ hd))
    rw [fetchPc_of_PC hPC] at hexec
    exact ⟨_, _, hexec, encode_call_toNat nnn, rfl, rfl, rfl, rfl, unchangedBut_raiseFault s _ _ _⟩

/-- Settles O40, by the two equations of RET. -/
theorem retPopsIntoPcOrUnderflows : Obligations.RetPopsIntoPcOrUnderflows := by
  intro s a hPC
  refine ⟨fun below v hs => ?_, fun hs => ?_⟩
  · exact ⟨_, exec_ret_of_concat hs, rfl, rfl, unchangedBut_setPC_setStack s v below⟩
  · have hexec := exec_ret_of_nil hs
    rw [fetchPc_of_PC hPC] at hexec
    exact ⟨_, hexec, rfl, rfl, rfl, rfl, unchangedBut_raiseFault s _ _ _⟩

/-- Settles O41: a CALL that leaves the block running pushed `a + 2`, and RET pops it. -/
theorem retReturnsBehindTheCall : Obligations.RetReturnsBehindTheCall := by
  intro nnn s t u a hPC hcall hrun hrunning hstack
  rcases execCall_cases hcall with ⟨-, rfl⟩ | ⟨-, rfl⟩
  · cases (hrun.trans hrunning : RunState.halted = .running)
  · exact ⟨_, exec_ret_of_concat hstack, hPC, rfl⟩

/-- Settles O42: each register skip is `skipIf` on its own comparison. -/
theorem registerSkipsAdvanceByFourOrTwo : Obligations.RegisterSkipsAdvanceByFourOrTwo := by
  intro x y kk s a hPC
  exact ⟨⟨_, rfl, skipIf_advances hPC (byte_beq_iff_toNat_eq _ _)⟩,
    ⟨_, rfl, skipIf_advances hPC (byte_bne_iff_toNat_ne _ _)⟩,
    ⟨_, rfl, skipIf_advances hPC (byte_beq_iff_toNat_eq _ _)⟩,
    ⟨_, rfl, skipIf_advances hPC (byte_bne_iff_toNat_ne _ _)⟩⟩

/-- Settles O38: `nnn` and `nnn + V[0]` fit into PC. -/
theorem jumpsSetThePc : Obligations.JumpsSetThePc := by
  intro nnn s
  exact ⟨⟨_, rfl, zext16_toNat nnn, unchangedBut_setPC s _⟩,
    ⟨_, rfl, jpV0_target_toNat nnn (s.readV 0), unchangedBut_setPC s _⟩⟩

end Sys2Proof.Machine
end

section
/-! SUPPORT. Register arithmetic and logic (42_alu): frames of register writes and of a random byte, the
flags and results as numbers, and a flag that is written before the result is computed. -/

namespace Sys2Proof.Machine

/-! ## Frames -/

theorem Part.same_trans {s t u : State} {p : Part} (hst : Part.same s t p) (htu : Part.same t u p) :
    Part.same s u p := by
  cases p
  case random => exact ⟨htu.1.trans hst.1, htu.2.trans hst.2⟩
  all_goals exact Eq.trans htu hst

theorem unchangedBut_trans {s t u : State} {ps : List Part} (hst : s.unchangedBut t ps)
    (htu : t.unchangedBut u ps) : s.unchangedBut u ps := fun p hp =>
  Part.same_trans (hst p hp) (htu p hp)

/-- A register write changes that register alone (10_state R21). -/
theorem unchangedBut_writeV (s : State) {x : RegIdx} (b : Byte) {ps : List Part} (h : .v x ∈ ps) :
    s.unchangedBut (s.writeV x b) ps := by
  intro p hp
  cases p
  case v y => exact readV_writeV_other s b fun e => hp (e ▸ h)
  case random => exact ⟨rfl, rfl⟩
  all_goals rfl

theorem unchangedBut_writeV_writeV (s : State) {x y : RegIdx} (b c : Byte) {ps : List Part}
    (hx : .v x ∈ ps) (hy : .v y ∈ ps) : s.unchangedBut ((s.writeV x b).writeV y c) ps :=
  unchangedBut_trans (unchangedBut_writeV s b hx) (unchangedBut_writeV _ c hy)

/-- Taking a random byte changes the random source alone (10_state R47). -/
theorem unchangedBut_afterRandom (s : State) {ps : List Part} (h : .random ∈ ps) :
    s.unchangedBut s.afterRandom ps := by
  intro p hp
  cases p
  case random => exact absurd h hp
  all_goals simp [Part.same]

/-! ## Results and flags as numbers -/

theorem byte_sub_toNat (a b : Byte) : (a - b).toNat = (a.toNat + 256 - b.toNat) % 256 := by
  have hb := b.isLt
  rw [BitVec.toNat_sub]
  omega

theorem byte_shr_toNat (a : Byte) : (a >>> 1).toNat = a.toNat / 2 := by
  rw [BitVec.toNat_ushiftRight, Nat.shiftRight_eq_div_pow]

theorem byte_shl_toNat (a : Byte) : (a <<< 1).toNat = a.toNat * 2 % 256 := by
  rw [BitVec.toNat_shiftLeft, Nat.shiftLeft_eq]

theorem carryFlag_toNat (a b : Byte) :
    (carryFlag a b).toNat = if a.toNat + b.toNat > 255 then 1 else 0 :=
  apply_ite BitVec.toNat _ _ _

theorem notBorrowFlag_toNat (a b : Byte) :
    (notBorrowFlag a b).toNat = if a.toNat > b.toNat then 1 else 0 :=
  apply_ite BitVec.toNat _ _ _

theorem shrFlag_toNat (a : Byte) : (shrFlag a).toNat = a.toNat % 2 :=
  (BitVec.toNat_and a 1).trans (Nat.and_one_is_mod a.toNat)

/-- The mask keeps bit 7, the sign bit of the byte (42_alu R191). -/
theorem shlFlag_toNat (a : Byte) :
    (shlFlag a).toNat = if a.toNat ≥ 128 then 0x80 else 0x00 := by
  have hmask : shlFlag a = if a.msb then 0x80 else 0x00 := BitVec.and_twoPow a 7
  rw [hmask, BitVec.msb_eq_decide, apply_ite BitVec.toNat]
  simp

/-! ## A flag written before the result -/

/-- The flag stays unless the result overwrites it (10_state R37). -/
theorem readV_vF_of_flag_first (s : State) {x : RegIdx} (f b : Byte) (hx : x ≠ vF) :
    ((s.writeV vF f).writeV x b).readV vF = f := by
  rw [readV_writeV_other _ b hx.symm, readV_writeV_same]

/-- With x = F the result overwrites the flag. -/
theorem readV_vF_of_flag_lost (s : State) {x : RegIdx} (f b : Byte) (hx : x = vF) :
    ((s.writeV vF f).writeV x b).readV vF = b := by
  rw [hx, readV_writeV_same]

/-- The difference that SUB and SUBN write: minuend and subtrahend are read after the flag was written
(42_alu R188, R190). -/
def State.subAfterFlag (s : State) (f : Byte) (minuend subtrahend : RegIdx) : Byte :=
  (s.writeV vF f).readV minuend - (s.writeV vF f).readV subtrahend

theorem exec_sub (x y : RegIdx) (s : State) :
    exec (.sub x y) s = .next ((s.writeV vF (notBorrowFlag (s.readV x) (s.readV y))).writeV x
      (s.subAfterFlag (notBorrowFlag (s.readV x) (s.readV y)) x y)) := rfl

theorem exec_subn (x y : RegIdx) (s : State) :
    exec (.subn x y) s = .next ((s.writeV vF (notBorrowFlag (s.readV y) (s.readV x))).writeV x
      (s.subAfterFlag (notBorrowFlag (s.readV y) (s.readV x)) y x)) := rfl

/-- The difference has the flag in the place of VF. -/
theorem subAfterFlag_cases (s : State) {b : Byte} {f : Nat} (hb : b.toNat = f) (p q : RegIdx) :
    (p ≠ vF → q ≠ vF → (s.subAfterFlag b p q).toNat =
      ((s.readV p).toNat + 256 - (s.readV q).toNat) % 256) ∧
    (p = vF → q ≠ vF → (s.subAfterFlag b p q).toNat = (f + 256 - (s.readV q).toNat) % 256) ∧
    (p ≠ vF → q = vF → (s.subAfterFlag b p q).toNat = ((s.readV p).toNat + 256 - f) % 256) ∧
    (p = vF → q = vF → (s.subAfterFlag b p q).toNat = 0) := by
  unfold State.subAfterFlag
  refine ⟨fun hp hq => ?_, fun hp hq => ?_, fun hp hq => ?_, fun hp hq => ?_⟩
  · rw [byte_sub_toNat, readV_writeV_other s b hp, readV_writeV_other s b hq]
  · rw [byte_sub_toNat, hp, readV_writeV_same, readV_writeV_other s b hq, hb]
  · rw [byte_sub_toNat, readV_writeV_other s b hp, hq, readV_writeV_same, hb]
  · rw [hp, hq, BitVec.sub_self]
    rfl

/-! ## The random source -/

/-- A draw uses up a listed byte or counts up (10_state R47; log 6). -/
theorem afterRandom_fresh (s : State) :
    (s.afterRandom.draws, s.afterRandom.drawCount) ≠ (s.draws, s.drawCount) := by
  rw [afterRandom_draws, afterRandom_drawCount]
  cases s.draws with
  | nil => simp
  | cons r rest => simp

/-- Only bits of the mask survive it (42_alu R192). -/
theorem and_mask_and_not_mask (r kk : Byte) : r &&& kk &&& ~~~kk = 0 := by
  rw [BitVec.and_assoc, BitVec.and_not_self]
  exact BitVec.and_zero

end Sys2Proof.Machine
end

section
/-! PROOF. The statements on register arithmetic and logic (42_alu). -/

namespace Sys2Proof.Machine

/-- Settles O35, by instruction: one register write, a register and its flag, or a random byte and a
register. -/
theorem aluInstructionsChangeNothingElse : Obligations.AluInstructionsChangeNothingElse := by
  intro i s t hf h
  cases i
  case ldImm | addImm | ldReg | orReg | andReg | xorReg =>
    cases h
    exact unchangedBut_writeV s _ (.head _)
  case addReg =>
    cases h
    exact unchangedBut_writeV_writeV s _ _ (.head _) (.tail _ (.head _))
  case sub | subn | shr | shl =>
    cases h
    exact unchangedBut_writeV_writeV s _ _ (.tail _ (.head _)) (.head _)
  case rnd =>
    cases h
    exact unchangedBut_trans (unchangedBut_afterRandom s (.tail _ (.head _)))
      (unchangedBut_writeV _ _ (.head _))
  all_goals cases hf

/-- Settles O43: each instruction is one register write, and `aluInstructionsChangeNothingElse` is its
frame. -/
theorem loadsLogicAndAddImmediateWriteOnlyTheDestination :
    Obligations.LoadsLogicAndAddImmediateWriteOnlyTheDestination := by
  intro x y kk s
  have hframe := aluInstructionsChangeNothingElse
  refine ⟨⟨_, rfl, ?_, hframe (.ldImm x kk) s _ rfl rfl⟩,
    ⟨_, rfl, ?_, hframe (.ldReg x y) s _ rfl rfl⟩,
    ⟨_, rfl, fun k => ?_, hframe (.orReg x y) s _ rfl rfl⟩,
    ⟨_, rfl, fun k => ?_, hframe (.andReg x y) s _ rfl rfl⟩,
    ⟨_, rfl, fun k => ?_, hframe (.xorReg x y) s _ rfl rfl⟩,
    ⟨_, rfl, ?_, hframe (.addImm x kk) s _ rfl rfl⟩⟩
  all_goals rw [readV_writeV_same]
  · exact BitVec.getLsbD_or
  · exact BitVec.getLsbD_and
  · rw [BitVec.getLsbD_xor, Bool.bne_eq_xor]
  · exact BitVec.toNat_add _ _

/-- Settles O44: the carry is the last write, so it stands even where it overwrites the sum. -/
theorem addSetsVfToTheCarry : Obligations.AddSetsVfToTheCarry := by
  intro x y s
  refine ⟨_, rfl, ?_, fun hx => ?_, aluInstructionsChangeNothingElse (.addReg x y) s _ rfl rfl⟩
  · rw [readV_writeV_same, carryFlag_toNat]
  · rw [readV_writeV_other _ _ hx, readV_writeV_same]
    exact BitVec.toNat_add _ _

/-- Settles O45: the difference has the flag in the place of VF (`subAfterFlag_cases`), and with x = F it
overwrites the flag. -/
theorem subSetsVfThenSubtracts : Obligations.SubSetsVfThenSubtracts := by
  intro x y s f hf
  have hflag := (notBorrowFlag_toNat (s.readV x) (s.readV y)).trans hf.symm
  obtain ⟨hneither, hxF, hyF, hboth⟩ := subAfterFlag_cases s hflag x y
  exact ⟨_, exec_sub x y s, aluInstructionsChangeNothingElse (.sub x y) s _ rfl rfl,
    fun hx => by rw [readV_vF_of_flag_first s _ _ hx, hflag],
    fun hx hy => by rw [readV_writeV_same, hneither hx hy],
    fun hx hy => by rw [readV_vF_of_flag_lost s _ _ hx, hxF hx hy],
    fun hx hy => by rw [readV_writeV_same, hyF hx hy],
    fun hx hy => by rw [readV_vF_of_flag_lost s _ _ hx, hboth hx hy]⟩

/-- Settles O46, as O45: here V[y] is the minuend and V[x] the subtrahend. -/
theorem subnSetsVfThenSubtracts : Obligations.SubnSetsVfThenSubtracts := by
  intro x y s f hf
  have hflag := (notBorrowFlag_toNat (s.readV y) (s.readV x)).trans hf.symm
  obtain ⟨hneither, hyF, hxF, hboth⟩ := subAfterFlag_cases s hflag y x
  exact ⟨_, exec_subn x y s, aluInstructionsChangeNothingElse (.subn x y) s _ rfl rfl,
    fun hx => by rw [readV_vF_of_flag_first s _ _ hx, hflag],
    fun hx hy => by rw [readV_writeV_same, hneither hy hx],
    fun hx hy => by rw [readV_vF_of_flag_lost s _ _ hx, hxF hy hx],
    fun hx hy => by rw [readV_writeV_same, hyF hy hx],
    fun hx hy => by rw [readV_vF_of_flag_lost s _ _ hx, hboth hy hx]⟩

/-- Settles O47: with x = F it is the flag that is shifted, and its one bit falls out. -/
theorem shiftsKeepTheirUnequalFlags : Obligations.ShiftsKeepTheirUnequalFlags := by
  intro x y s
  have hframe := aluInstructionsChangeNothingElse
  refine ⟨⟨_, rfl, hframe (.shr x y) s _ rfl rfl, fun hx => ⟨?_, ?_⟩, fun hx => ?_⟩,
    ⟨_, rfl, hframe (.shl x y) s _ rfl rfl, fun hx => ⟨?_, ?_⟩, fun hx => ?_⟩⟩
  · rw [readV_vF_of_flag_first s _ _ hx, shrFlag_toNat]
  · rw [readV_writeV_same, byte_shr_toNat, readV_writeV_other s _ hx]
  · subst hx
    rw [readV_writeV_same, byte_shr_toNat, readV_writeV_same, shrFlag_toNat]
    omega
  · rw [readV_vF_of_flag_first s _ _ hx, shlFlag_toNat]
  · rw [readV_writeV_same, byte_shl_toNat, readV_writeV_other s _ hx]
  · subst hx
    rw [readV_writeV_same, byte_shl_toNat, readV_writeV_same, shlFlag_toNat]
    split <;> rfl

/-- Settles O48: a draw takes the listed byte or the free one of the counter, and the mask is applied to
whichever it is. -/
theorem randomByteIsMaskedAndFresh : Obligations.RandomByteIsMaskedAndFresh := by
  intro x kk s
  have hframe := aluInstructionsChangeNothingElse (.rnd x kk) s _ rfl rfl
  refine ⟨fun r rest hd => ⟨_, rfl, ?_, by simp [hd], by simp [hd], hframe⟩,
    fun hd => ⟨_, rfl, ?_, by simp [hd], by simp [hd], hframe⟩,
    ⟨_, rfl, ?_, afterRandom_fresh s, hframe⟩⟩
  · rw [readV_writeV_same, nextRandom_of_cons s hd]
  · rw [readV_writeV_same, nextRandom_of_nil s hd]
  · rw [readV_writeV_same, and_mask_and_not_mask]

end Sys2Proof.Machine
end

section
/-! SUPPORT. The index register and memory transfers (43_index_memory): the parts that a block transfer
names, what a new I, a block store and a block load leave unchanged, and what they put where. -/

namespace Sys2Proof.Machine

/-! ## The parts of a block transfer -/

/-- Each address of a block is reduced on its own, so a block can wrap around (20_memory R61). -/
theorem mem_memParts {addr n : Nat} {a : Fin 4096} :
    .mem a ∈ memParts addr n ↔ ∃ k < n, a.val = (addr + k) % 4096 := by
  simp [memParts, Fin.ext_iff, eq_comm]

theorem regParts_eq_map_regRange (x : RegIdx) : regParts x = (regRange x).map Reg.part :=
  (List.map_map (f := fun k => Reg.v (Fin.ofNat 16 k)) (g := Reg.part)).symm

theorem mem_regParts {x k : RegIdx} : .v k ∈ regParts x ↔ k ≤ x := by
  rw [regParts_eq_map_regRange, List.mem_map]
  constructor
  · rintro ⟨r, hr, hp⟩
    obtain ⟨j, hj, rfl⟩ := mem_regRange.1 hr
    cases hp
    exact hj
  · exact fun hk => ⟨.v k, mem_regRange.2 ⟨k, hk, rfl⟩, rfl⟩

/-! ## Frames -/

theorem unchangedBut_setI (s : State) (v : Word) : s.unchangedBut { s with I := v } [.i] := by
  intro p hp
  cases p
  case i => simp at hp
  case random => exact ⟨rfl, rfl⟩
  all_goals rfl

/-- A block store changes the bytes of its block alone (20_memory R61, R64). -/
theorem unchangedBut_storeBytes {s : State} (hm : Memory.wf s.cfg.font s.mem) (addr : Nat)
    (bs : List Byte) : s.unchangedBut (s.storeBytes addr bs) (memParts addr bs.length) := by
  intro p hp
  cases p
  case mem a =>
    refine memRead_storeBytes_other bs addr a hm fun k hk e => hp (mem_memParts.2 ⟨k, hk, ?_⟩)
    rw [← e, Nat.mod_eq_of_lt a.isLt]
  all_goals simp [Part.same]

/-- A block load changes the registers it loads alone (43_index_memory R226). -/
theorem unchangedBut_loadRegs (s : State) (addr : Nat) (x : RegIdx) :
    s.unchangedBut (s.loadRegs addr (x.val + 1)) (regParts x) := by
  intro p hp
  cases p
  case v k =>
    have hk : ¬ k.val < x.val + 1 := fun h => hp (mem_regParts.2 (Nat.le_of_lt_succ h))
    exact (readV_loadRegs s addr k (x.val + 1) x.isLt).trans (if_neg hk)
  all_goals simp [Part.same]

/-! ## Values -/

/-- `V[x] * 5` is at most 0x4FB (43_index_memory R223). -/
theorem fontAddress_toNat (v : Byte) : (BitVec.ofNat 16 (v.toNat * 5)).toNat = v.toNat * 5 := by
  have hv := v.isLt
  rw [BitVec.toNat_ofNat, Nat.mod_eq_of_lt (by omega)]

/-- The sum of ADD I, Vx is reduced modulo 65536 (43_index_memory R222). -/
theorem add_zext_byte_toNat (w : Word) (v : Byte) :
    (w + v.setWidth 16).toNat = (w.toNat + v.toNat) % 65536 := by
  rw [BitVec.toNat_add, BitVec.toNat_setWidth_of_le (by decide)]

/-- The digits of a byte, as numbers (43_index_memory R224). -/
theorem bcdDigits_toNat (v : Byte) : ∃ hundreds tens units : Byte,
    bcdDigits v = [hundreds, tens, units] ∧ hundreds.toNat = v.toNat / 100 ∧
    tens.toNat = v.toNat / 10 % 10 ∧ units.toNat = v.toNat % 10 := by
  have hv := v.isLt
  refine ⟨_, _, _, rfl, ?_, ?_, ?_⟩ <;> exact Nat.mod_eq_of_lt (by omega)

/-- After Fx33 the bytes at I, I + 1 and I + 2 are the decimal digits of V[x] (R224). -/
theorem memRead_ldBVx {x : RegIdx} {s t : State} (hm : Memory.wf s.cfg.font s.mem)
    (h : exec (.ldBVx x) s = .next t) :
    (t.memRead s.I.toNat).toNat = (s.readV x).toNat / 100 ∧
    (t.memRead (s.I.toNat + 1)).toNat = (s.readV x).toNat / 10 % 10 ∧
    (t.memRead (s.I.toNat + 2)).toNat = (s.readV x).toNat % 10 := by
  cases h
  obtain ⟨hundreds, tens, units, hdigits, hhundreds, htens, hunits⟩ := bcdDigits_toNat (s.readV x)
  have hread := memRead_storeBytes [hundreds, tens, units] s.I.toNat hm (by simp)
  rw [hdigits, ← hhundreds, ← htens, ← hunits]
  exact ⟨congrArg BitVec.toNat (hread 0 (by simp)), congrArg BitVec.toNat (hread 1 (by simp)),
    congrArg BitVec.toNat (hread 2 (by simp))⟩

/-- After Fx65 the registers V0 to Vx are the bytes at I onward (R226). -/
theorem readV_ldVxMem {x : RegIdx} {s t : State} (h : exec (.ldVxMem x) s = .next t) {k : RegIdx}
    (hk : k ≤ x) : t.readV k = s.memRead (s.I.toNat + k.val) := by
  cases h
  rw [readV_loadRegs s s.I.toNat k (x.val + 1) x.isLt, if_pos (Nat.lt_succ_of_le hk)]

end Sys2Proof.Machine
end

section
/-! PROOF. The statements on the index register and memory transfers (43_index_memory). -/

namespace Sys2Proof.Machine

/-- Settles O36, by instruction: a new I, a block store or a block load. -/
theorem indexMemoryInstructionsChangeNothingElse :
    Obligations.IndexMemoryInstructionsChangeNothingElse := by
  intro i s t hf hm h
  cases i
  case ldI | addIVx | ldFVx =>
    cases h
    exact unchangedBut_setI s _
  case ldBVx x =>
    cases h
    exact unchangedBut_storeBytes hm s.I.toNat (bcdDigits (s.readV x))
  case ldMemVx x =>
    cases h
    rw [State.mayWrite, ← regsUpTo_length s x]
    exact unchangedBut_storeBytes hm s.I.toNat (s.regsUpTo x)
  case ldVxMem x =>
    cases h
    exact unchangedBut_loadRegs s s.I.toNat x
  all_goals cases hf

/-- Settles O50: the digits by `memRead_ldBVx`, the frame by O36. -/
theorem bcdDigitsAreStoredAtI : Obligations.BcdDigitsAreStoredAtI := by
  intro x s hm
  obtain ⟨hhundreds, htens, hunits⟩ := memRead_ldBVx (x := x) hm rfl
  exact ⟨_, rfl, hhundreds, htens, hunits,
    indexMemoryInstructionsChangeNothingElse (.ldBVx x) s _ rfl hm rfl⟩

/-- Settles O51: the bytes by `memRead_ldMemVx`, the frame by O36. -/
theorem registersAreStoredAtI : Obligations.RegistersAreStoredAtI := by
  intro x s hm
  exact ⟨_, rfl, fun _ hk => memRead_ldMemVx hm rfl hk,
    indexMemoryInstructionsChangeNothingElse (.ldMemVx x) s _ rfl hm rfl⟩

/-- Settles O52; no memory is written, so its form does not matter to the frame. -/
theorem registersAreLoadedFromI : Obligations.RegistersAreLoadedFromI := by
  intro x s
  exact ⟨_, rfl, fun _ hk => readV_ldVxMem rfl hk, unchangedBut_loadRegs s s.I.toNat x⟩

/-- Settles O53: the load reads at I what the store put there. -/
theorem storeThenLoadRestoresTheRegisters : Obligations.StoreThenLoadRestoresTheRegisters := by
  intro x s t u hm hI
  refine ⟨fun hstore hsame => ?_, fun hstore hsame => ?_⟩
  · obtain ⟨w, hload⟩ := exec_answers_next (.ldVxMem x) u
    refine ⟨w, hload, fun k hk => ?_⟩
    calc w.readV k = u.memRead (u.I.toNat + k.val) := readV_ldVxMem hload hk
      _ = t.memRead (s.I.toNat + k.val) := by rw [hI, hsame k.val hk]
      _ = s.readV k := memRead_ldMemVx hm hstore hk
  · obtain ⟨w, hload⟩ := exec_answers_next (.ldVxMem 2) u
    have hread : ∀ k : RegIdx, k ≤ 2 → w.readV k = t.memRead (s.I.toNat + k.val) := fun k hk => by
      rw [readV_ldVxMem hload hk, hI, hsame k.val (Nat.lt_succ_of_le hk)]
    obtain ⟨hhundreds, htens, hunits⟩ := memRead_ldBVx hm hstore
    exact ⟨w, hload, (congrArg BitVec.toNat (hread 0 (by decide))).trans hhundreds,
      (congrArg BitVec.toNat (hread 1 (by decide))).trans htens,
      (congrArg BitVec.toNat (hread 2 (by decide))).trans hunits⟩

/-- Settles O49: `nnn` and the product fit into I, the sum is reduced modulo 65536. -/
theorem indexRegisterWrites : Obligations.IndexRegisterWrites := by
  intro nnn x s
  exact ⟨⟨_, rfl, zext16_toNat nnn, unchangedBut_setI s _⟩,
    ⟨_, rfl, add_zext_byte_toNat s.I (s.readV x), unchangedBut_setI s _⟩,
    ⟨_, rfl, fontAddress_toNat (s.readV x), unchangedBut_setI s _⟩⟩

end Sys2Proof.Machine
end

section
/-! SUPPORT. Display, keys and timers (44_display_input_timers): what each instruction leaves unchanged, and
the key that a register value names. -/

namespace Sys2Proof.Machine

/-! ## Frames -/

theorem unchangedBut_clearFb (s : State) : s.unchangedBut s.clearFb [.fb, .outputs] := by
  intro p hp
  cases p
  case fb | outputs => simp at hp
  case random => exact ⟨rfl, rfl⟩
  all_goals rfl

/-- Toggles change the grid and the calls on the port alone (10_state R42). -/
theorem unchangedBut_togglePixels (s : State) (ps : List (Nat × Nat)) {qs : List Part}
    (hfb : .fb ∈ qs) (ho : .outputs ∈ qs) : s.unchangedBut (s.togglePixels ps).2 qs := by
  intro p hp
  rw [togglePixels_eq]
  cases p
  case fb => exact absurd hfb hp
  case outputs => exact absurd ho hp
  case random => exact ⟨rfl, rfl⟩
  all_goals rfl

theorem unchangedBut_beginWait (s : State) (x : RegIdx) :
    s.unchangedBut { s with waitReg := x, run := .waitingForKey } [.run, .waitReg] := by
  intro p hp
  cases p
  case run | waitReg => simp at hp
  case random => exact ⟨rfl, rfl⟩
  all_goals rfl

theorem unchangedBut_setDT (s : State) (b : Byte) : s.unchangedBut { s with DT := b } [.dt] := by
  intro p hp
  cases p
  case dt => simp at hp
  case random => exact ⟨rfl, rfl⟩
  all_goals rfl

theorem unchangedBut_setST (s : State) (b : Byte) : s.unchangedBut { s with ST := b } [.st] := by
  intro p hp
  cases p
  case st => simp at hp
  case random => exact ⟨rfl, rfl⟩
  all_goals rfl

/-! ## Keys (10_state R44) -/

theorem keyPressed_of_lt (s : State) {v : Byte} (h : v.toNat < 16) :
    s.keyPressed v = s.keys[v.toNat] := dif_pos h

/-- A value over 15 names no key (D13). -/
theorem keyPressed_of_ge (s : State) {v : Byte} (h : 16 ≤ v.toNat) : s.keyPressed v = false :=
  dif_neg (Nat.not_lt.2 h)

end Sys2Proof.Machine
end

section
/-! SUPPORT. Draws (44_display_input_timers R252): a grid is its pixels, the keys that a list of calls names,
and what a draw makes of the grid and of VF, with and without two calls that name one pixel. -/

namespace Sys2Proof.Machine

/-! ## The grid and its pixels (10_state R40) -/

/-- Every key of the grid is the key of some pixel. -/
theorem exists_pixelKey_eq {c : Config} {q : Nat} (h : q < c.fbWidth * c.fbHeight) :
    ∃ px py, pixelKey c px py = q := by
  refine ⟨q, q / c.fbWidth, ?_⟩
  rw [pixelKey, Nat.mod_eq_of_lt (Nat.div_lt_of_lt_mul h)]
  exact Nat.div_add_mod' q c.fbWidth

/-- Canonical grids with the same pixels on are equal. -/
theorem fb_eq_of_pixelOn_eq {s t : State} (hcfg : t.cfg = s.cfg) (hs : Framebuffer.wf s.cfg s.fb)
    (ht : Framebuffer.wf s.cfg t.fb) (h : ∀ px py, t.pixelOn px py = s.pixelOn px py) :
    t.fb = s.fb := by
  refine Framebuffer.ext ht.1 hs.1 fun q => ?_
  by_cases hq : q < s.cfg.fbWidth * s.cfg.fbHeight
  · obtain ⟨px, py, rfl⟩ := exists_pixelKey_eq hq
    simpa only [State.pixelOn, hcfg, decide_eq_decide] using h px py
  · exact iff_of_false (fun hm => hq (ht.2 q hm)) fun hm => hq (hs.2 q hm)

/-! ## Calls that name one pixel each -/

/-- The keys of the pixels that a list of calls names after the wrap (10_state R42). -/
def pixelKeys (c : Config) (ps : List (Nat × Nat)) : List Nat :=
  ps.map fun p => pixelKey c p.1 p.2

/-- How often the calls name a pixel. -/
theorem countP_wrap_eq_count {c : Config} (hw : 0 < c.fbWidth) (px py : Nat) (ps : List (Nat × Nat)) :
    (ps.countP fun p => p.1 % c.fbWidth = px % c.fbWidth ∧ p.2 % c.fbHeight = py % c.fbHeight) =
      (pixelKeys c ps).count (pixelKey c px py) := by
  rw [pixelKeys, List.count, List.countP_map]
  refine List.countP_congr fun p _ => ?_
  simp only [decide_eq_true_eq, Function.comp_apply, beq_iff_eq, pixelKey_eq_iff hw]

/-- A flip on a condition changes a bit exactly when the condition holds. -/
theorem bne_decide_ne_self_iff (b : Bool) (p : Prop) [Decidable p] :
    (b != decide p) ≠ b ↔ p := by
  cases b <;> simp

/-- When no two calls name one pixel, a pixel flips exactly when a call names it. -/
theorem pixelOn_togglePixels_of_nodup {s : State} {ps : List (Nat × Nat)} (hw : 0 < s.cfg.fbWidth)
    (hh : 0 < s.cfg.fbHeight) (hfb : Framebuffer.wf s.cfg s.fb) (hnd : (pixelKeys s.cfg ps).Nodup)
    (px py : Nat) :
    (s.togglePixels ps).2.pixelOn px py =
      (s.pixelOn px py != decide (pixelKey s.cfg px py ∈ pixelKeys s.cfg ps)) := by
  rw [pixelOn_togglePixels px py ps hw hh hfb, countP_wrap_eq_count hw, hnd.count]
  split <;> simp [*]

/-- When no two calls name one pixel, some call meets a pixel that is on exactly when it names a pixel that
was on before the first call. -/
theorem togglePixels_hit_of_nodup {s : State} {ps : List (Nat × Nat)} (hw : 0 < s.cfg.fbWidth)
    (hh : 0 < s.cfg.fbHeight) (hfb : Framebuffer.wf s.cfg s.fb) (hnd : (pixelKeys s.cfg ps).Nodup) :
    (s.togglePixels ps).1 = true ↔ ∃ p ∈ ps, s.pixelOn p.1 p.2 = true := by
  have hmet : ∀ before p after, ps = before ++ p :: after →
      (s.togglePixels before).2.pixelOn p.1 p.2 = s.pixelOn p.1 p.2 := by
    rintro before p after rfl
    rw [pixelKeys, List.map_append, List.map_cons] at hnd
    have hnew : pixelKey s.cfg p.1 p.2 ∉ pixelKeys s.cfg before := fun hm =>
      List.disjoint_of_nodup_append hnd hm (List.mem_cons_self ..)
    rw [pixelOn_togglePixels_of_nodup hw hh hfb hnd.of_append_left, decide_eq_false hnew,
      Bool.bne_false]
  rw [togglePixels_hit]
  constructor
  · rintro ⟨before, p, after, he, hon⟩
    exact ⟨p, he ▸ List.mem_append_right _ (List.mem_cons_self ..), hmet _ _ _ he ▸ hon⟩
  · rintro ⟨p, hp, hon⟩
    obtain ⟨before, after, he⟩ := List.append_of_mem hp
    exact ⟨before, p, after, he, (hmet _ _ _ he).trans hon⟩

/-- Toggling the same pixels again restores the grid (44_display_input_timers R259). -/
theorem togglePixels_twice_fb {s u : State} {ps : List (Nat × Nat)} (hw : 0 < s.cfg.fbWidth)
    (hh : 0 < s.cfg.fbHeight) (hfb : Framebuffer.wf s.cfg s.fb) (hcfg : u.cfg = s.cfg)
    (hu : u.fb = (s.togglePixels ps).2.fb) : (u.togglePixels ps).2.fb = s.fb := by
  have hwf : Framebuffer.wf s.cfg u.fb := hu ▸ togglePixels_wf hw hh ps hfb
  rw [← hcfg] at hwf hw hh
  refine fb_eq_of_pixelOn_eq ((togglePixels_cfg u ps).trans hcfg) hfb
    (hcfg ▸ togglePixels_wf hw hh ps hwf) fun px py => ?_
  rw [pixelOn_togglePixels px py ps hw hh hwf,
    pixelOn_congr hu (hcfg.trans (togglePixels_cfg s ps).symm),
    pixelOn_togglePixels px py ps (hcfg ▸ hw) (hcfg ▸ hh) hfb, hcfg, Bool.bne_assoc, bne_self_eq_false,
    Bool.bne_false]

/-! ## The calls of a draw -/

/-- A property of some call of a draw is a property of the pixel of some set sprite bit. -/
theorem exists_mem_drawPixels {s : State} {x y : RegIdx} {n : Nibble} {P : Nat → Nat → Prop} :
    (∃ p ∈ s.drawPixels x y n, P p.1 p.2) ↔
      ∃ r < n.toNat, ∃ c < 8, (s.memRead (s.I.toNat + r)).getLsbD (7 - c) = true ∧
        P ((s.readV x).toNat + c) ((s.readV y).toNat + r) := by
  simp only [mem_drawPixels]
  constructor
  · rintro ⟨p, ⟨r, hr, c, hc, hb, rfl⟩, hp⟩
    exact ⟨r, hr, c, hc, hb, hp⟩
  · rintro ⟨r, hr, c, hc, hb, hp⟩
    exact ⟨_, ⟨r, hr, c, hc, hb, rfl⟩, hp⟩

/-- A pixel is named by a draw exactly when a set sprite bit names it after the wrap (R252). -/
theorem mem_pixelKeys_drawPixels {s : State} (hw : 0 < s.cfg.fbWidth) (x y : RegIdx) (n : Nibble)
    (px py : Nat) :
    pixelKey s.cfg px py ∈ pixelKeys s.cfg (s.drawPixels x y n) ↔
      ∃ r < n.toNat, ∃ c < 8, (s.memRead (s.I.toNat + r)).getLsbD (7 - c) = true ∧
        ((s.readV x).toNat + c) % s.cfg.fbWidth = px % s.cfg.fbWidth ∧
        ((s.readV y).toNat + r) % s.cfg.fbHeight = py % s.cfg.fbHeight := by
  simp only [pixelKeys, List.mem_map, pixelKey_eq_iff hw]
  exact exists_mem_drawPixels (P := fun qx qy =>
    qx % s.cfg.fbWidth = px % s.cfg.fbWidth ∧ qy % s.cfg.fbHeight = py % s.cfg.fbHeight)

theorem drawPixels_pairwise (s : State) (x y : RegIdx) (n : Nibble) :
    (s.drawPixels x y n).Pairwise (fun p q => p.2 < q.2 ∨ p.2 = q.2 ∧ p.1 < q.1) :=
  spritePixels_pairwise _ _ _

/-- Fewer numbers in a row than the modulus have distinct remainders. -/
theorem eq_of_add_mod_eq {m a b c : Nat} (hb : b < m) (hc : c < m) (h : (a + b) % m = (a + c) % m) :
    b = c :=
  Nat.ModEq.eq_of_lt_of_lt (Nat.ModEq.add_left_cancel' a h) hb hc

/-- On a grid at least 8 wide and n high no two set bits of a sprite name one pixel. -/
theorem pixelKeys_drawPixels_nodup {s : State} {x y : RegIdx} {n : Nibble} (hw : 8 ≤ s.cfg.fbWidth)
    (hn : n.toNat ≤ s.cfg.fbHeight) : (pixelKeys s.cfg (s.drawPixels x y n)).Nodup := by
  have hcalls : (s.drawPixels x y n).Nodup := (drawPixels_pairwise s x y n).imp fun {p q} h e => by
    subst e
    omega
  refine hcalls.map_on fun p hp q hq hkey => ?_
  obtain ⟨r, hr, c, hc, -, rfl⟩ := mem_drawPixels.1 hp
  obtain ⟨r', hr', c', hc', -, rfl⟩ := mem_drawPixels.1 hq
  obtain ⟨hx, hy⟩ := (pixelKey_eq_iff (by omega) _ _ _ _).1 hkey
  rw [eq_of_add_mod_eq (by omega) (by omega) hx, eq_of_add_mod_eq (by omega) (by omega) hy]

/-- A draw depends on its coordinates, on I and on the bytes of the sprite alone (R252). -/
theorem drawPixels_congr {s u : State} {x y : RegIdx} {n : Nibble} (hx : u.readV x = s.readV x)
    (hy : u.readV y = s.readV y) (hI : u.I = s.I)
    (hm : ∀ r < n.toNat, u.memRead (s.I.toNat + r) = s.memRead (s.I.toNat + r)) :
    u.drawPixels x y n = s.drawPixels x y n := by
  have hbytes : u.readBytes s.I.toNat n.toNat = s.readBytes s.I.toNat n.toNat :=
    List.ext_getElem (by simp only [readBytes_length]) fun r hr _ => by
      rw [readBytes_length] at hr
      rw [readBytes_getElem, readBytes_getElem, hm r hr]
  rw [State.drawPixels, State.drawPixels, hx, hy, hI, hbytes]

/-! ## The collision flag -/

theorem collisionFlag_toNat (hit : Bool) : (collisionFlag hit).toNat = hit.toNat := by
  cases hit <;> rfl

/-- VF after a draw is 1 exactly when a toggle turned a pixel off, else 0 (R252). -/
theorem readV_vF_drw {x y : RegIdx} {n : Nibble} {s t : State} (h : exec (.drw x y n) s = .next t) :
    ((t.readV vF).toNat = 1 ↔ (s.togglePixels (s.drawPixels x y n)).1 = true) ∧
    (t.readV vF).toNat ≤ 1 := by
  cases h
  rw [readV_writeV_same, collisionFlag_toNat]
  exact ⟨Bool.toNat_eq_one, Bool.toNat_le _⟩

end Sys2Proof.Machine
end

section
/-! PROOF. The statements on display, keys and timers (44_display_input_timers). -/

namespace Sys2Proof.Machine

/-- Settles O37, by instruction: the grid and its calls, VF after them, a skip, a timer read, a wait or a
timer write. -/
theorem displayInstructionsChangeNothingElse : Obligations.DisplayInstructionsChangeNothingElse := by
  intro i s t hf h
  cases i
  case cls =>
    cases h
    exact unchangedBut_clearFb s
  case drw =>
    cases h
    exact unchangedBut_trans (unchangedBut_togglePixels s _ (.tail _ (.head _))
      (.tail _ (.tail _ (.head _)))) (unchangedBut_writeV _ _ (.head _))
  case skp | sknp =>
    cases h
    exact unchangedBut_skipIf s _
  case ldVxDt =>
    cases h
    exact unchangedBut_writeV s _ (.head _)
  case ldVxK =>
    cases h
    exact unchangedBut_beginWait s _
  case ldDtVx =>
    cases h
    exact unchangedBut_setDT s _
  case ldStVx =>
    cases h
    exact unchangedBut_setST s _
  all_goals cases hf

/-- Settles O56: on such a grid no two set bits name one pixel, so a pixel flips at most once and each call
meets its pixel as it was before the draw. -/
theorem drawFlipsTheSpritePixels : Obligations.DrawFlipsTheSpritePixels := by
  intro x y n s hfb hw8 hn hh
  have hw : 0 < s.cfg.fbWidth := by omega
  have hnd := pixelKeys_drawPixels_nodup (x := x) (y := y) hw8 hn
  obtain ⟨hVF, hle⟩ := readV_vF_drw (x := x) (y := y) (n := n) (s := s) rfl
  refine ⟨_, rfl, fun px py => ?_, ?_, hle,
    displayInstructionsChangeNothingElse (.drw x y n) s _ rfl rfl⟩
  · rw [← mem_pixelKeys_drawPixels hw, pixelOn_writeV, pixelOn_togglePixels_of_nodup hw hh hfb hnd]
    exact bne_decide_ne_self_iff _ _
  · rw [hVF, togglePixels_hit_of_nodup hw hh hfb hnd]
    exact exists_mem_drawPixels (P := fun px py => s.pixelOn px py = true)

/-- Settles O57: the calls are `drawPixels`, and the grid that a call meets is the one that the calls before
it left. -/
theorem drawTogglesInOrderOnAnyGrid : Obligations.DrawTogglesInOrderOnAnyGrid := by
  intro x y n s hfb hw hh
  obtain ⟨hVF, hle⟩ := readV_vF_drw (x := x) (y := y) (n := n) (s := s) rfl
  refine ⟨_, s.drawPixels x y n, rfl, fun p => mem_drawPixels, drawPixels_pairwise s x y n,
    togglePixels_outputs s _, fun px py => ?_, ?_, hle,
    displayInstructionsChangeNothingElse (.drw x y n) s _ rfl rfl⟩
  · rw [pixelOn_writeV, pixelOn_togglePixels px py _ hw hh hfb]
  · rw [hVF, togglePixels_hit]
    simp only [pixelOn_togglePixels _ _ _ hw hh hfb]

/-- Settles O58: the second draw makes the calls of the first, and without overlap each of them finds its
pixel as the first draw left it, flipped. -/
theorem drawTwiceRestoresTheGrid : Obligations.DrawTwiceRestoresTheGrid := by
  intro x y n s t u hfb hw hh hdraw hcfg hufb hI hx hy hm
  cases hdraw
  have hcalls := drawPixels_congr hx hy hI hm
  refine ⟨_, rfl, ?_, fun hw8 hn => ?_⟩
  · rw [writeV_fb, hcalls]
    exact togglePixels_twice_fb hw hh hfb hcfg hufb
  · have hnd := pixelKeys_drawPixels_nodup (x := x) (y := y) hw8 hn
    have hwf : Framebuffer.wf u.cfg u.fb := hcfg ▸ hufb ▸ togglePixels_wf hw hh _ hfb
    have hflipped : ∀ p ∈ s.drawPixels x y n, u.pixelOn p.1 p.2 = !s.pixelOn p.1 p.2 := by
      intro p hp
      have hnamed : pixelKey s.cfg p.1 p.2 ∈ pixelKeys s.cfg (s.drawPixels x y n) :=
        List.mem_map_of_mem hp
      rw [pixelOn_congr hufb (hcfg.trans (togglePixels_cfg s _).symm), pixelOn_writeV,
        pixelOn_togglePixels_of_nodup hw hh hfb hnd, decide_eq_true hnamed, Bool.bne_true]
    rw [(readV_vF_drw rfl).1, hcalls,
      togglePixels_hit_of_nodup (hcfg ▸ hw) (hcfg ▸ hh) hwf (hcfg ▸ hnd),
      ← exists_mem_drawPixels (P := fun px py => s.pixelOn px py = false)]
    refine exists_congr fun p => and_congr_right fun hp => ?_
    rw [hflipped p hp, Bool.not_eq_true']

/-- Settles O59: both skips test the same key, the second the other way round. -/
theorem keySkipsAdvanceByFourOrTwo : Obligations.KeySkipsAdvanceByFourOrTwo := by
  intro x s a hPC
  obtain ⟨hskp, hskpFrame⟩ := skipIf_advances (c := s.keyPressed (s.readV x)) hPC Iff.rfl
  obtain ⟨hsknp, hsknpFrame⟩ := skipIf_advances (c := !s.keyPressed (s.readV x)) hPC Iff.rfl
  refine ⟨_, _, rfl, rfl, hskpFrame, hsknpFrame, fun h => ?_, fun h => ?_⟩
  · rw [hskp, hsknp, keyPressed_of_lt s h]
    cases s.keys[(s.readV x).toNat] <;> exact ⟨rfl, rfl⟩
  · rw [hskp, hsknp, keyPressed_of_ge s h]
    exact ⟨rfl, rfl⟩

/-- Settles O16: the block is no longer RUNNING, so two steps leave the loop and end the frame in silence. -/
theorem keyWaitBeginsAndEndsTheFrame : Obligations.KeyWaitBeginsAndEndsTheFrame := by
  intro s x
  refine ⟨_, rfl, rfl, rfl, unchangedBut_beginWait s x, fun k hk => ?_⟩
  have hne : ({ s with waitReg := x, run := .waitingForKey } : State).run ≠ .running := nofun
  have hleave := run_leave (k := k) fun h => hne h.1
  rw [endFrame_of_paused hne, ← hk] at hleave
  exact hleave

/-- Settles O55: an empty grid has no pixel on. -/
theorem clsTurnsEveryPixelOff : Obligations.ClsTurnsEveryPixelOff := by
  intro s
  exact ⟨_, rfl, fun px py => decide_eq_false List.not_mem_nil, clearFb_outputs s,
    unchangedBut_clearFb s⟩

/-- Settles O60: each is one register write. -/
theorem timerReadsAndWrites : Obligations.TimerReadsAndWrites := by
  intro x s
  exact ⟨⟨_, rfl, readV_writeV_same s x s.DT, unchangedBut_writeV s _ (.head _)⟩,
    ⟨_, rfl, rfl, unchangedBut_setDT s _⟩, ⟨_, rfl, rfl, unchangedBut_setST s _⟩⟩

end Sys2Proof.Machine
end

section
/-! SUPPORT. Faults and HALTED (60_exceptions): the form of every step that halts a running block, and
what a halted block leaves unchanged of a transaction. -/

namespace Sys2Proof.Machine

theorem unchangedBut_of_subset {s t : State} {ps qs : List Part} (h : s.unchangedBut t ps)
    (hsub : ps ⊆ qs) : s.unchangedBut t qs := fun p hp => h p (mt (@hsub p) hp)

/-! ## A faulting step -/

/-- The instructions that can change the run state, RET, CALL and Fx0A, write no register (10_state R23,
R38). -/
theorem regsWritten_of_run_ne {i : Instr} {s t : State} (h : exec i s = .next t)
    (hne : t.run ≠ s.run) : regsWritten i = [] := by
  have hsame := fun hr hc hk => (exec_sameControl hr hc hk h).run
  cases i
  case ret | call | ldVxK => rfl
  all_goals exact absurd (hsame nofun nofun nofun) hne

theorem prepared_eq_advance {i : Instr} (h : regsWritten i = []) (s : State) (k : Nat) :
    s.prepared k i = s.advance k := by
  rw [State.prepared, h]
  rfl

/-- An instruction that halts the block raises a fault on the advanced state, with its own word and
address (60_exceptions R282, R283). -/
theorem exec_halts {i : Instr} {s t : State} {k : Nat} (hr : s.run = .running)
    (h : exec i (s.prepared k i) = .next t) (ht : t.run = .halted) :
    ∃ c, t = (s.advance k).raiseFault c (encode i) s.PC := by
  have hne : t.run ≠ s.run := ht ▸ hr ▸ nofun
  rcases exec_run_cases h with ⟨hrun, -⟩ | ⟨x, -, rfl⟩ | ⟨c, he⟩
  · exact absurd hrun hne
  · cases ht
  · rw [prepared_fetchPc, prepared_eq_advance (regsWritten_of_run_ne h hne)] at he
    exact ⟨c, he⟩

/-- No transaction halts a running block (40_cycle R139). -/
theorem acceptNext_run_ne_halted {s : State} (hr : s.run = .running) : s.acceptNext.run ≠ .halted := by
  intro ht
  rcases acceptNext_run_cases s (ht ▸ hr ▸ nofun) with ⟨rest, hi⟩ | ⟨key, rest, -, hw⟩
  · rw [acceptNext_cons hi] at ht
    cases ht
  · cases hr.symm.trans hw

/-- A step that halts a running block is an instruction step that raises a fault on the advanced state, with
the fetched word and its address (60_exceptions R281 to R283). -/
theorem step_halts {s t : State} (hr : s.run = .running) (h : step s = .next t)
    (ht : t.run = .halted) : ∃ k c, t = (s.advance k).raiseFault c s.fetchWord s.PC := by
  rcases step_cases h with ⟨-, rfl⟩ | ⟨k, i, -, -, -, hd, he⟩ | ⟨k, e, -, -, -, -, rfl⟩ |
    ⟨k, -, -, rfl⟩ | ⟨-, -, rfl⟩ | ⟨-, hp, -⟩
  · exact absurd ht (acceptNext_run_ne_halted hr)
  · obtain ⟨c, rfl⟩ := exec_halts hr he ht
    exact ⟨k, c, by rw [encode_of_decode hd]⟩
  · exact ⟨k, _, rfl⟩
  · cases hr.symm.trans ht
  · rw [endRunning_eq] at ht
    cases hr.symm.trans ht
  · exact absurd hr hp

theorem unchangedBut_advance (s : State) (k : Nat) : s.unchangedBut (s.advance k) [.pc, .ctl] := by
  intro p hp
  cases p
  case pc | ctl => simp at hp
  case random => exact ⟨rfl, rfl⟩
  all_goals rfl

/-- A fault raised on the advanced state changes PC and the four parts of a fault alone (R283, R285). -/
theorem unchangedBut_advance_raiseFault (s : State) (k : Nat) (c : FaultCause) (op a : Word) :
    s.unchangedBut ((s.advance k).raiseFault c op a) (.pc :: faultParts) :=
  unchangedBut_trans (unchangedBut_of_subset (unchangedBut_advance s k) (by decide))
    (unchangedBut_of_subset (unchangedBut_raiseFault _ c op a) (List.subset_cons_self _ _))

/-! ## A halted block -/

theorem unchangedBut_emit (s : State) (o : Output) : s.unchangedBut (s.emit o) [.outputs] := by
  intro p hp
  cases p
  case outputs => simp at hp
  case random => exact ⟨rfl, rfl⟩
  all_goals rfl

theorem unchangedBut_setInputs (s : State) (is : List Input) :
    s.unchangedBut { s with inputs := is } [.inputs] := by
  intro p hp
  cases p
  case inputs => simp at hp
  case random => exact ⟨rfl, rfl⟩
  all_goals rfl

theorem unchangedBut_setKeys (s : State) (ks : Vector Bool 16) :
    s.unchangedBut { s with keys := ks } [.keys] := by
  intro p hp
  cases p
  case keys => simp at hp
  case random => exact ⟨rfl, rfl⟩
  all_goals rfl

theorem memParts_mono (addr : Nat) {m n : Nat} (h : m ≤ n) : memParts addr m ⊆ memParts addr n :=
  List.map_subset _ (List.range_subset.2 h)

/-- A program load changes the program space, or issues a load error (70_reset R322, 60_exceptions R286). -/
theorem unchangedBut_loadProgram {s : State} (hm : Memory.wf s.cfg.font s.mem) (bytes : List Byte) :
    s.unchangedBut (s.loadProgram bytes) (.outputs :: memParts 0x200 maxProgramBytes) := by
  rcases loadProgram_cases s bytes with ⟨-, he⟩ | ⟨-, he⟩ | ⟨-, hlen, he⟩ <;> rw [he]
  · exact unchangedBut_of_subset (unchangedBut_emit s _) (by simp)
  · exact unchangedBut_of_subset (unchangedBut_emit s _) (by simp)
  · exact unchangedBut_of_subset (unchangedBut_storeBytes hm _ bytes)
      (List.subset_cons_of_subset _ (memParts_mono _ hlen))

/-- What can still change of a halted block and its environment before the next `create`: the key table, the
schedule, the outputs and the program space (60_exceptions R291). -/
def haltedParts : List Part := .keys :: .inputs :: .outputs :: memParts 0x200 maxProgramBytes

/-- A halted block starts no frame and takes no key; a program load reaches memory alone (40_cycle R136,
R138, 60_exceptions R291). -/
theorem unchangedBut_accept_of_halted {s : State} (hm : Memory.wf s.cfg.font s.mem)
    (hr : s.run = .halted) {i : Input} (hc : i ≠ .create) : s.unchangedBut (s.accept i) haltedParts := by
  cases i with
  | create => exact absurd rfl hc
  | loadProgram bytes =>
    exact unchangedBut_of_subset (unchangedBut_loadProgram hm bytes)
      (List.subset_cons_of_subset _ (List.subset_cons_self _ _))
  | loadUnavailable =>
    exact unchangedBut_of_subset (unchangedBut_emit s _) (by simp [haltedParts])
  | runOneFrame =>
    rw [State.accept, State.startFrame, if_pos hr]
    exact fun p _ => Part.same_refl s p
  | keyPress k =>
    rw [State.accept, keyPress_of_not_waiting (hr ▸ nofun)]
    exact unchangedBut_of_subset (unchangedBut_setKeys s _) (by simp [haltedParts])
  | setKeys ks =>
    exact unchangedBut_of_subset (unchangedBut_setKeys s ks) (by simp [haltedParts])

theorem unchangedBut_acceptNext_of_halted {s : State} (hm : Memory.wf s.cfg.font s.mem)
    (hr : s.run = .halted) (hc : ∀ rest, s.inputs ≠ .create :: rest) :
    s.unchangedBut s.acceptNext haltedParts := by
  cases hi : s.inputs with
  | nil =>
    rw [State.acceptNext, hi]
    exact unchangedBut_accept_of_halted hm hr (i := .runOneFrame) nofun
  | cons i rest =>
    rw [acceptNext_cons hi]
    exact unchangedBut_trans
      (unchangedBut_of_subset (unchangedBut_setInputs s rest) (by simp [haltedParts]))
      (unchangedBut_accept_of_halted (s := { s with inputs := rest }) hm hr fun h => hc rest (h ▸ hi))

end Sys2Proof.Machine
end

section
/-! PROOF. The statements on faults and HALTED (60_exceptions). -/

namespace Sys2Proof.Machine

/-- Settles O10: a step that halts the block is a fault raised on the advanced state (`step_halts`). -/
theorem faultingStepChangesNothingElse : Obligations.FaultingStepChangesNothingElse := by
  intro s t hr h ht
  obtain ⟨k, c, rfl⟩ := step_halts hr h ht
  exact ⟨c, rfl, rfl, rfl, rfl, unchangedBut_advance_raiseFault s k c _ _⟩

/-- Settles O11: a halted block is in IDLE, and no transaction but `create` reaches its run state or its
record. -/
theorem onlyCreateLeavesHalted : Obligations.OnlyCreateLeavesHalted := by
  intro s t hs hr hc h
  rw [step_idle (hs.halted hr)] at h
  cases h
  have hsame := unchangedBut_acceptNext_of_halted hs.mem hr hc
  have hrun : .run ∉ haltedParts := by simp [haltedParts, memParts]
  have hfault : .fault ∉ haltedParts := by simp [haltedParts, memParts]
  exact ⟨(hsame .run hrun).trans hr, hsame .fault hfault, hsame⟩

/-- Settles O9, by the error branch of the instruction step. -/
theorem unknownWordHaltsTheBlock : Obligations.UnknownWordHaltsTheBlock := by
  intro s k e hc hr hk hd
  rw [step_instr hc hr hk, instrStep, hd]
  rfl

/-- Settles O13: no step stops, whatever `INIT_REGS` is. -/
theorem everyStepCompletesWithZeroedRegisters : Obligations.EveryStepCompletesWithZeroedRegisters :=
  fun s _ => step_answers_next s

end Sys2Proof.Machine
end

section
/-! SUPPORT. Reset and program load (70_reset): an accepted transaction, what a memory with no listed byte
reads as, and the registers of a creation under `INIT_REGS = Zero`. -/

namespace Sys2Proof.Machine

/-- In IDLE the step takes the next transaction off the schedule and accepts it (40_cycle R120). -/
theorem step_accept {s : State} {i : Input} {rest : List Input} (hc : s.ctl = .idle)
    (hi : s.inputs = i :: rest) : step s = .next ({ s with inputs := rest }.accept i) := by
  rw [step_idle hc, acceptNext_cons hi]

/-! ## Memory after a creation (70_reset R320, R321) -/

theorem memRead_of_mem_nil {s : State} (hm : s.mem = []) {a : Nat} (ha : a < 4096) :
    s.memRead a = Memory.blank s.cfg.font a := by
  rw [State.memRead, hm, Nat.mod_eq_of_lt ha, Memory.get]

theorem memRead_font_of_mem_nil {s : State} (hm : s.mem = []) (a : Nat) (h : a < 80) :
    s.memRead a = s.cfg.font[a] :=
  (memRead_of_mem_nil hm (by omega)).trans (dif_pos h)

theorem memRead_zero_of_mem_nil {s : State} (hm : s.mem = []) (a : Nat) (hlo : 80 ≤ a)
    (hhi : a < 4096) : s.memRead a = 0 :=
  (memRead_of_mem_nil hm hhi).trans (dif_neg (Nat.not_lt.2 hlo))

/-- Behind the font a fetch from a memory that nothing has written finds the zero word (70_reset R324). -/
theorem fetchWord_zero_of_mem_nil {s : State} (hm : s.mem = []) (hlo : 80 ≤ s.PC.toNat)
    (hhi : s.PC.toNat + 1 < 4096) : s.fetchWord = 0 := by
  rw [State.fetchWord, memRead_zero_of_mem_nil hm _ hlo (by omega),
    memRead_zero_of_mem_nil hm _ (by omega) hhi]
  rfl

/-- The zero word is no instruction: running it halts the block (30_encoding R98, 60_exceptions R283). -/
theorem step_of_fetchWord_zero {s : State} {k : Nat} (hc : s.ctl = .inFrame k) (hr : s.run = .running)
    (hk : k < s.cfg.speed) (hz : s.fetchWord = 0) :
    step s = .next ((s.advance k).raiseFault .unknownOpcode 0 s.PC) := by
  rw [step_instr hc hr hk, instrStep, hz]
  rfl

/-! ## Registers and pixels after a creation (70_reset R320, 00_scope R7) -/

theorem powerUpWord_zero {c : Config} (h : c.initRegs = .zero) (n k : Nat) : powerUpWord c n k = 0 := by
  simp [powerUpWord, h]

theorem powerUpByte_zero {c : Config} (h : c.initRegs = .zero) (n k : Nat) : powerUpByte c n k = 0 := by
  rw [powerUpByte, powerUpWord_zero h]
  rfl

theorem initial_registers_zero {c : Config} (h : c.initRegs = .zero) (n : Nat) :
    (∀ x, (State.initial c n).readV x = 0) ∧ (State.initial c n).I = 0 ∧
      (State.initial c n).DT = 0 ∧ (State.initial c n).ST = 0 :=
  ⟨fun x => (readV_initial c n x).trans (powerUpByte_zero h n x.val), powerUpWord_zero h n 16,
    powerUpByte_zero h n 17, powerUpByte_zero h n 18⟩

theorem pixelOn_of_fb_nil {s : State} (h : s.fb = []) (px py : Nat) : s.pixelOn px py = false := by
  simp [State.pixelOn, h]

end Sys2Proof.Machine
end

section
/-! PROOF. The statements on reset and program load (70_reset). -/

namespace Sys2Proof.Machine

/-- Settles O23, by the three cases of a program load, whose lengths exclude each other. -/
theorem programLoadWritesExactlyItsBytes : Obligations.ProgramLoadWritesExactlyItsBytes := by
  intro s bytes rest hm hc hi
  have hstep : step s = .next ({ s with inputs := rest }.loadProgram bytes) := step_accept hc hi
  have hmax : maxProgramBytes = 3584 := rfl
  rcases loadProgram_cases { s with inputs := rest } bytes with ⟨hlen, he⟩ | ⟨hlen, he⟩ |
    ⟨hpos, hlen, he⟩ <;> rw [he] at hstep
  · exact ⟨fun _ _ => by omega, fun _ => hstep, fun _ => by omega⟩
  · exact ⟨fun _ _ => by omega, fun _ => by omega, fun _ => hstep⟩
  · have hbytes := memRead_storeBytes bytes (s := { s with inputs := rest }) 0x200 hm (by omega)
    have hframe := unchangedBut_storeBytes (s := { s with inputs := rest }) hm 0x200 bytes
    refine ⟨fun _ _ => ⟨_, hstep, hbytes, ?_⟩, fun _ => by omega, fun _ => by omega⟩
    exact unchangedBut_trans (unchangedBut_of_subset (unchangedBut_setInputs s rest) (by simp))
      (unchangedBut_of_subset hframe (List.subset_cons_self _ _))

/-- Settles O21: reset is a creation under the default configuration, whose `INIT_REGS` is Zero. -/
theorem resetLeavesTheStatedValues : Obligations.ResetLeavesTheStatedValues := by
  obtain ⟨hV, hI, hDT, hST⟩ := initial_registers_zero (c := Config.default) rfl 0
  exact ⟨rfl, hV, hI, rfl, hDT, hST, rfl, rfl, pixelOn_of_fb_nil rfl, rfl, rfl,
    memRead_zero_of_mem_nil rfl, memRead_font_of_mem_nil rfl⟩

/-- Settles O22: `create` is a creation under the block's own configuration, whatever the state before. -/
theorem createResetsTheBlock : Obligations.CreateResetsTheBlock := by
  intro s rest hc hi
  exact ⟨_, step_accept hc hi, memRead_font_of_mem_nil (s := State.createBlock _) rfl,
    memRead_zero_of_mem_nil rfl, fun hz => initial_registers_zero hz _, rfl, rfl, rfl, rfl,
    pixelOn_of_fb_nil rfl, rfl, rfl, rfl⟩

/-- Settles O24: the first step starts the frame, the second runs the zero word at 0x200. -/
theorem frameBeforeAnyLoadHalts : Obligations.FrameBeforeAnyLoadHalts := by
  have hstart := step_runOneFrame (s := { State.reset with inputs := [.runOneFrame] }) rfl rfl
  have hzero : { State.reset with ctl := .inFrame 0 }.fetchWord = 0 :=
    fetchWord_zero_of_mem_nil rfl (by decide) (by decide)
  have hhalt := step_of_fetchWord_zero rfl rfl (by decide) hzero
  exact ⟨_, (run_succ 1 hstart).trans (run_succ 0 hhalt), rfl, rfl, rfl, rfl⟩

end Sys2Proof.Machine
end
